-- ==== Sys2Proof/Word.lean ====
section
/-! DEFINITION. The data the block moves: bytes, the 32-bit payload, a file of eight byte registers, and the shapes of
the environment's answers (00_scope.md R11, R15; 10_state.md R23, R26, R31, R32). -/

namespace Sys2Proof

/-- A byte: 8 bits, unsigned (R15). -/
abbrev Byte := BitVec 8

/-- The payload of a write request and of a read response: 32 bits, unsigned (R11). -/
abbrev Word := BitVec 32

/-- Eight byte registers: the shape of `ACC`, `TXB` and `RXB` (R26, R31, R32), and of a datagram of eight bytes (R90). -/
structure Bytes8 where
  b0 : Byte
  b1 : Byte
  b2 : Byte
  b3 : Byte
  b4 : Byte
  b5 : Byte
  b6 : Byte
  b7 : Byte
deriving DecidableEq, Repr

/-- A value of the type `E`: the transport's own error, which the block copies and never inspects (R9, R222, D19).
DESIGN CHOICE (log 10): a tag, so that states stay plain data. -/
structure TransportError where
  tag : Nat
deriving DecidableEq, Repr

/-- What the environment may answer to `TxWrite` and to `TxFlush` (R23). -/
inductive TxAnswer where
  | ok
  | err (e : TransportError)
deriving DecidableEq, Repr

/-- What the environment may answer to `RxRead` (R23): the bytes themselves, or an error. -/
inductive RxAnswer where
  | ok (bs : List Byte)
  | err (e : TransportError)
deriving DecidableEq, Repr

end Sys2Proof
end

