-- ==== Sys2Proof/Config.lean ====
section
/-! DEFINITION. What an instance of the block fixes (the parameters of 00_scope.md R9) and the free values of what the
spec leaves unspecified. -/

namespace Sys2Proof

/-- Which function the Checksum Oracle `CK` is (R12). The source withholds the algorithm, so beside the default of R14
every number names a function about which nothing is known. DESIGN CHOICE (log 3): a name, so that states stay plain
data. -/
inductive Checksum where
  | crc8
  | uninterpreted (n : Nat)
deriving DecidableEq, Repr

/-- One row of `ADDR_TABLE`: whether a known register is readable and whether it is writable (R75). -/
structure Access where
  readable : Bool
  writable : Bool
deriving DecidableEq, Repr

/-- The parameters of the instance (R9): arguments of the model, fixed for the instance (R46). -/
structure Params where
  sync     : Byte
  sentinel : Byte
  checksum : Checksum
  table    : List (Byte × Access)
deriving DecidableEq, Repr

/-- The checksum functions about which nothing is known (R12, D4). -/
opaque Config.freeChecksum : Nat → List Byte → Byte

/-- Free value: a byte register the spec leaves unspecified after a block reset (R48, R260; log 6). -/
opaque Config.freeByte : Nat → Byte

/-- Free value: the length register `TXN`, unspecified after a block reset (R48, R260; log 6). -/
opaque Config.freeCount : Nat → Fin 9

/-- Free value: the one-bit register `OPR`, unspecified after a block reset (R48, R260; log 6). -/
opaque Config.freeBit : Nat → Bool

end Sys2Proof
end

