-- ==== Sys2Proof/Machine/Operands.lean ====
section
/-! DEFINITION. Operand forms: byte order, the masks of a register address, the slave address byte, and the reads and
writes of a file of eight byte registers (00_scope.md R15, R17; 20_memory.md R63, R70; 30_encoding.md R95 to R97). -/

namespace Sys2Proof

/-- `be32(d)`: the four bytes of a payload, most significant first (R17, R63). -/
def be32 (d : Word) : List Byte :=
  [d.extractLsb' 24 8, d.extractLsb' 16 8, d.extractLsb' 8 8, d.extractLsb' 0 8]

/-- `unbe32(b0, b1, b2, b3)` (R17, R63). -/
def unbe32 (b0 b1 b2 b3 : Byte) : Word :=
  (b0.setWidth 32 <<< 24) ||| (b1.setWidth 32 <<< 16) ||| (b2.setWidth 32 <<< 8) ||| b3.setWidth 32

/-- `reg_addr and 0x7F`: what of a register address reaches the wire (`ADDR_MASK`, R9, R70, R96). -/
def maskReg (r : Byte) : Byte := r &&& 0x7F#8

/-- `(reg_addr and 0x7F) or 0x80`: byte 2 of a Request-Write (`WRITE_FLAG`, R9, R96). -/
def flagReg (r : Byte) : Byte := maskReg r ||| 0x80#8

/-- `zext_8` of a 7-bit register address. -/
def zextReg (r : BitVec 7) : Byte := r.setWidth 8

/-- `zext_8(SLAVE_ADDR)`: byte 1 of a request the engine builds (R77, R185). -/
def zextSlave (a : BitVec 2) : Byte := a.setWidth 8

/-- The bytes of a request that its checksum covers (R98). -/
def readHead (sync slave : Byte) (reg : BitVec 7) : List Byte := [sync, slave, zextReg reg]

/-- The bytes of a write request that its checksum covers (R98). -/
def writeHead (sync slave : Byte) (reg : BitVec 7) (data : Word) : List Byte :=
  [sync, slave, flagReg (zextReg reg)] ++ be32 data

/-- The bytes of a response that its checksum covers (R98). -/
def respHead (sync source reg : Byte) (data : Word) : List Byte := [sync, source, reg] ++ be32 data

namespace Bytes8

/-- All eight registers, index 0 first. -/
def toList (r : Bytes8) : List Byte := [r.b0, r.b1, r.b2, r.b3, r.b4, r.b5, r.b6, r.b7]

/-- Writing register `i`; there is no register at index 8 or above. -/
def set (r : Bytes8) (i : Nat) (v : Byte) : Bytes8 :=
  match i with
  | 0 => { r with b0 := v }
  | 1 => { r with b1 := v }
  | 2 => { r with b2 := v }
  | 3 => { r with b3 := v }
  | 4 => { r with b4 := v }
  | 5 => { r with b5 := v }
  | 6 => { r with b6 := v }
  | 7 => { r with b7 := v }
  | _ => r

/-- `R[i .. i+k-1] <- bs`: a list of `k` bytes is stored from index `i` on. -/
def store (r : Bytes8) (i : Nat) : List Byte → Bytes8
  | [] => r
  | b :: bs => (r.set i b).store (i + 1) bs

/-- All eight registers at one value. -/
def fill (v : Byte) : Bytes8 := ⟨v, v, v, v, v, v, v, v⟩

/-- Eight free values, drawn at the counter values `n` to `n + 7` (log 6). -/
def free (n : Nat) : Bytes8 :=
  ⟨Config.freeByte n, Config.freeByte (n + 1), Config.freeByte (n + 2), Config.freeByte (n + 3),
   Config.freeByte (n + 4), Config.freeByte (n + 5), Config.freeByte (n + 6), Config.freeByte (n + 7)⟩

end Bytes8

/-- The first eight bytes of a list, where it has eight (R131). -/
def firstEight : List Byte → Option Bytes8
  | b0 :: b1 :: b2 :: b3 :: b4 :: b5 :: b6 :: b7 :: _ => some ⟨b0, b1, b2, b3, b4, b5, b6, b7⟩
  | _ => none

end Sys2Proof
end

