-- ==== Sys2Proof/Machine/Parameters.lean ====
section
/-! DEFINITION. The instance's parameters at work: the checksum oracle and its `verify`, the table of known addresses,
the constraints the spec puts on an instance, and the spec's default instance (00_scope.md R9 to R14; 20_memory.md
R75). -/

namespace Sys2Proof

/-- One bit of `CK_TMC` (R14): the register shifts left and takes in the polynomial 0x07 when its top bit differs from
the message bit. -/
def crcBit (crc : Byte) (bit : Bool) : Byte :=
  if (crc.msb ^^ bit) then (crc <<< 1) ^^^ 0x07#8 else crc <<< 1

/-- `n` bits of one message byte, least significant first (R14). -/
def crcBits : Nat → Byte → Byte → Byte
  | 0, crc, _ => crc
  | n + 1, crc, b => crcBits n (crcBit crc (b.getLsbD 0)) (b >>> 1)

/-- `CK_TMC`: the default checksum (R14). PRESUMED (log 2): general knowledge of the chip. -/
def crcTmc (bs : List Byte) : Byte := bs.foldl (crcBits 8) 0x00#8

/-- `CK(bs)` (R12). -/
def Params.ck (P : Params) (bs : List Byte) : Byte :=
  match P.checksum with
  | .crc8 => crcTmc bs
  | .uninterpreted n => Config.freeChecksum n bs

/-- `VERIFY(bs)`: there is a last byte and it is the checksum of all the bytes before it (R12). -/
def Params.verify (P : Params) (bs : List Byte) : Bool :=
  match bs.getLast? with
  | none => false
  | some c => P.ck bs.dropLast == c

/-- The one property required of `CK` (R13): over seven bytes, a single bit changes it. -/
def Params.CkSingleBit (P : Params) : Prop :=
  ∀ bs : List Byte, bs.length = 7 → ∀ i < 7, ∀ k < 8,
    P.ck (bs.modify i (· ^^^ (1#8 <<< k))) ≠ P.ck bs

/-- `ADDR_TABLE(a)`: the row of a known address, none for an unknown one (R75). -/
def Params.addrTable (P : Params) (a : Byte) : Option Access := P.table.lookup a

/-- The known set lies in 0x00 to 0x72 and 0x6F is in it (R71, R75). -/
def Params.tableOk (P : Params) : Bool :=
  (P.table.all fun row => row.1.toNat ≤ 0x72) && (P.addrTable 0x6F#8).isSome

/-- The default `ADDR_TABLE` (R75). PRESUMED (log 2): the public register list of the chip. -/
def defaultTable : List (Byte × Access) :=
  [(0x00#8, ⟨true, true⟩), (0x01#8, ⟨true, true⟩), (0x02#8, ⟨true, false⟩), (0x03#8, ⟨false, true⟩),
   (0x04#8, ⟨false, true⟩), (0x05#8, ⟨true, false⟩), (0x06#8, ⟨true, false⟩), (0x07#8, ⟨true, true⟩)] ++
  [(0x10#8, ⟨false, true⟩), (0x11#8, ⟨false, true⟩), (0x12#8, ⟨true, false⟩), (0x13#8, ⟨false, true⟩),
   (0x14#8, ⟨false, true⟩), (0x22#8, ⟨false, true⟩), (0x40#8, ⟨false, true⟩), (0x41#8, ⟨true, false⟩)] ++
  [(0x42#8, ⟨false, true⟩), (0x6A#8, ⟨true, false⟩), (0x6B#8, ⟨true, false⟩), (0x6C#8, ⟨true, true⟩),
   (0x6F#8, ⟨true, false⟩), (0x70#8, ⟨true, true⟩), (0x71#8, ⟨true, false⟩), (0x72#8, ⟨true, false⟩)]

/-- The spec's default instance (R9, R14, R75). PRESUMED (log 2): the source withholds all four. -/
def Params.default : Params :=
  { sync := 0x05#8, sentinel := 0xFF#8, checksum := .crc8, table := defaultTable }

end Sys2Proof
end

