-- ==== Sys2Proof/Syntax.lean ====
section
/-! DEFINITION. The operations of the block: one constructor for each row of spec/opcode_table.json, with the row's
operands (30_encoding.md R104, R107). -/

namespace Sys2Proof

/-- The fifteen operations of R104 and the three datagram formats of R90. -/
inductive Instr where
  /-- `REQ_READ`: an image of a Request-Read, every field of R91 at any value. -/
  | reqRead (sync slave : Byte) (reg : BitVec 7) (ck : Byte)
  /-- `REQ_WRITE`: an image of a Request-Write, every field of R92 at any value. -/
  | reqWrite (sync slave : Byte) (reg : BitVec 7) (data : Word) (ck : Byte)
  /-- `RESP_READ`: an image of a Response-Read, every field of R93 at any value. -/
  | respRead (sync source reg : Byte) (data : Word) (ck : Byte)
  /-- `READ_TXN`: the command word with `op` = 0 (R41); its data field is ignored (R186). -/
  | readTxn (reg : Byte) (ignored : Word)
  /-- `WRITE_TXN`: the command word with `op` = 1 (R41). -/
  | writeTxn (reg : Byte) (data : Word)
  /-- `ENCODE_READ slave, reg` (R121). -/
  | encodeRead (slave reg : Byte)
  /-- `ENCODE_WRITE slave, reg, data` (R124). -/
  | encodeWrite (slave reg : Byte) (data : Word)
  /-- `DECODE_RESP` of exactly eight bytes (R128). -/
  | decodeResp (b : Bytes8)
  /-- `DECODE_RESP_SLICE` of any number of bytes (R131). -/
  | decodeRespSlice (bs : List Byte)
  /-- `REQW_FIELDS` of the eight bytes of a Request-Write (R133). -/
  | reqwFields (b : Bytes8)
  /-- `CLASSIFY_ADDR raw` (R135). -/
  | classifyAddr (raw : Byte)
  /-- `PARSER_RESET`, the `preset` event (R151). -/
  | parserReset
  /-- `PARSE_BYTE b` (R152). -/
  | parseByte (b : Byte)
  /-- `FEED bytes`, the `feed` event (R158). -/
  | feed (bs : List Byte)
  /-- `WRITE_ALL`, by the event `tx_write_ans(a)` (R187). -/
  | writeAll (a : TxAnswer)
  /-- `FLUSH`, by the event `tx_flush_ans(a)` (R188). -/
  | flush (a : TxAnswer)
  /-- `READ_EXACT`, one turn of its loop, by the event `rx_read_ans(a)` (R190). -/
  | readExact (a : RxAnswer)
  /-- `CANCEL`, the `cancel` event (R202). -/
  | cancel
deriving DecidableEq, Repr

end Sys2Proof
end

