-- ==== Sys2Proof/WellFormed.lean ====
section
/-! DEFINITION. When an instruction is a genuine one of its row: the constants and the checksum of a datagram image
(30_encoding.md R91 to R93), the contract of a transport answer (10_state.md R23), and which images an observer of
eight bytes can tell apart (R99). -/

namespace Sys2Proof

/-- An image of eight bytes is told a response by its byte 1, the source sentinel, and else a write request by the
write flag (R99): the images this reading gives back. -/
def Instr.told (P : Params) : Instr → Bool
  | .reqWrite _ slave _ _ _ => slave != P.sentinel
  | .respRead _ source reg _ _ => source == P.sentinel || !reg.msb
  | .reqRead .. | .readTxn .. | .writeTxn .. | .encodeRead .. | .encodeWrite .. | .decodeResp _ | .decodeRespSlice _
  | .reqwFields _ | .classifyAddr _ | .parserReset | .parseByte _ | .feed _ | .writeAll _ | .flush _ | .readExact _
  | .cancel => true

/-- Well-formed: a datagram image carries the instance's constants and the right checksum (R91, R92, R93), a request is
no response (R99), and a transport answer has room for at most eight bytes (R23). The machine gives every instruction a
meaning, well-formed or not. -/
def Instr.wf (P : Params) : Instr → Bool
  | .reqRead sync slave reg ck => sync == P.sync && ck == P.ck (readHead sync slave reg)
  | .reqWrite sync slave reg data ck =>
      sync == P.sync && slave != P.sentinel && ck == P.ck (writeHead sync slave reg data)
  | .respRead sync source reg data ck =>
      sync == P.sync && source == P.sentinel && ck == P.ck (respHead sync source reg data)
  | .readExact (.ok bs) => bs.length ≤ 8
  | .readExact (.err _) => true
  | .readTxn .. | .writeTxn .. | .encodeRead .. | .encodeWrite .. | .decodeResp _ | .decodeRespSlice _ | .reqwFields _
  | .classifyAddr _ | .parserReset | .parseByte _ | .feed _ | .writeAll _ | .flush _ | .cancel => true

end Sys2Proof
end

