-- ==== Sys2Proof/Decode.lean ====
section
/-! DEFINITION. The decoder, total on any bytes and rejecting by name, and the encoder: the three datagrams
(30_encoding.md R90 to R94) and the command word (10_state.md R41). The thirteen rows whose `encoding` is empty are
selected by the interface they arrive at and have no bit pattern (R107). -/

namespace Sys2Proof

/-- Why bytes are no instruction. -/
inductive DecodeError where
  /-- Neither 4, 6 nor 8 bytes: there is no other length (R90, R41). Safe: no effect. -/
  | badLength
  /-- Four bytes whose byte 2 has the write flag: a write request has eight (R99). Safe: no effect. -/
  | flagInReadRequest
  /-- Six bytes with a bit set above the 41 of a command word (R41). Safe: no effect. -/
  | bitsAboveCommand
deriving DecidableEq, Repr

/-- Four bytes: a Request-Read, bit 7 of byte 2 clear (R91, R94). -/
def decodeFour (b0 b1 b2 b3 : Byte) : Except DecodeError Instr :=
  if b2.msb then .error .flagInReadRequest else .ok (.reqRead b0 b1 (b2.setWidth 7) b3)

/-- Eight bytes: a response when byte 1 is the sentinel, else a write request when byte 2 has the flag (R99), else a
pattern only the response decoder looks at (R101). DEDUCED (log 13). -/
def decodeEight (P : Params) (b : Bytes8) : Instr :=
  if b.b1 ≠ P.sentinel ∧ b.b2.msb = true then
    .reqWrite b.b0 b.b1 (b.b2.setWidth 7) (unbe32 b.b3 b.b4 b.b5 b.b6) b.b7
  else .respRead b.b0 b.b1 b.b2 (unbe32 b.b3 b.b4 b.b5 b.b6) b.b7

/-- Six bytes: the 41 bits of a command word, most significant byte first, seven zero bits above them (R41).
DESIGN CHOICE (log 12): the bytes. -/
def decodeCommand (b0 b1 b2 b3 b4 b5 : Byte) : Except DecodeError Instr :=
  if b0 = 0x00#8 then .ok (.readTxn b1 (unbe32 b2 b3 b4 b5))
  else if b0 = 0x01#8 then .ok (.writeTxn b1 (unbe32 b2 b3 b4 b5))
  else .error .bitsAboveCommand

/-- The decoder of the bit patterns of the table (R107), under the instance's parameters. -/
def decode (P : Params) : List Byte → Except DecodeError Instr
  | [b0, b1, b2, b3] => decodeFour b0 b1 b2 b3
  | [b0, b1, b2, b3, b4, b5] => decodeCommand b0 b1 b2 b3 b4 b5
  | [b0, b1, b2, b3, b4, b5, b6, b7] => .ok (decodeEight P ⟨b0, b1, b2, b3, b4, b5, b6, b7⟩)
  | _ => .error .badLength

/-- The bytes of an instruction that has a bit pattern, from the layouts of R91, R92, R93 and R41; none for the rows
whose encoding is empty (R107). -/
def encode : Instr → Option (List Byte)
  | .reqRead sync slave reg ck => some (readHead sync slave reg ++ [ck])
  | .reqWrite sync slave reg data ck => some (writeHead sync slave reg data ++ [ck])
  | .respRead sync source reg data ck => some (respHead sync source reg data ++ [ck])
  | .readTxn reg ignored => some ([0x00#8, reg] ++ be32 ignored)
  | .writeTxn reg data => some ([0x01#8, reg] ++ be32 data)
  | .encodeRead .. | .encodeWrite .. | .decodeResp _ | .decodeRespSlice _ | .reqwFields _ | .classifyAddr _
  | .parserReset | .parseByte _ | .feed _ | .writeAll _ | .flush _ | .readExact _ | .cancel => none

/-- The `n` bytes of a number, most significant first. -/
def beBytes : Nat → Nat → List Byte
  | 0, _ => []
  | n + 1, w => BitVec.ofNat 8 (w >>> (8 * n)) :: beBytes n w

/-- A row's bits as spec/opcode_table.json numbers them, laid out as bytes: the row is ONE word, its bit 0 the least
significant bit, byte 0 of a datagram in its top bits (the table's `source_fields`; R94). DEDUCED (log 12). -/
def tableBytes (nbits w : Nat) : List Byte := beBytes ((nbits + 7) / 8) w

/-- The instruction the decoder reads from a table row's word, under the default instance (log 12). -/
def decodeTableWord (nbits w : Nat) : Option Instr :=
  match decode Params.default (tableBytes nbits w) with
  | .ok i => some i
  | .error _ => none

end Sys2Proof
end

