-- ==== Sys2Proof/Machine/State.lean ====
section
/-! DEFINITION. The state of the block (10_state.md), the values its operations end with, the reasons a step can stop,
and the state after reset (R47, R48). -/

namespace Sys2Proof.Machine

/-- The eight errors of the flat taxonomy (60_exceptions.md R220, R221). They are results, not stops of the machine. -/
inductive Error where
  | transportFailure (inner : TransportError)
  | noResponse
  | invalidSync
  | invalidSourceAddress
  | checksumMismatch
  | shortBuffer
  | addressMismatch (expected actual : Byte)
  | unknownAddress (raw : Byte)
deriving DecidableEq, Repr

/-- `Ok(v)` or `Err(x)`: the shapes of a fallible result (R17). -/
inductive Fallible (α : Type) where
  | ok (v : α)
  | err (x : Error)
deriving DecidableEq, Repr

/-- A Response-Read value: what decoding a response gives (R127). -/
structure Response where
  regAddr : Byte
  data    : Word
deriving DecidableEq, Repr

/-- The outcome of a parser step and of `FEED` (R157). -/
inductive ParseOutcome where
  | noResultYet
  | decodedDatagram (resp : Response)
  | decodeError (x : Error)
deriving DecidableEq, Repr

/-- One result of a transaction, as `RES` holds it (R35). -/
inductive TxnResult where
  | okRead (data : Word)
  | okWrite
  | err (x : Error)
deriving DecidableEq, Repr

/-- The phase `PH` (R33): which transport call is outstanding. -/
inductive Phase where
  | idle
  | wr
  | fl
  | echo
  | reply
deriving DecidableEq, Repr

/-- The latched operation `OPR` (R34): 0 = read, 1 = write. -/
inductive Op where
  | read
  | write
deriving DecidableEq, Repr

/-- A call the engine makes to the transport (R23). -/
inductive Call where
  | txWrite (bs : List Byte)
  | txFlush
  | rxRead (cap : Nat)
deriving DecidableEq, Repr

/-- The Parser State (R26, R27): the cursor `CUR`, 0 to 8, and the accumulator `ACC[0..7]`. -/
structure Parser where
  cur : Fin 9
  acc : Bytes8
deriving DecidableEq, Repr

/-- What an event hands back to its caller and the block does not store (R39). DESIGN CHOICE (log 9): a port of the
model that nothing reads. -/
inductive Returned where
  | nothing
  | request (bs : List Byte)
  | response (r : Fallible Response)
  | fields (slave reg : Byte) (data : Word)
  | access (r : Fallible Access)
  | outcome (o : ParseOutcome)
  | fed (consumed : Nat) (o : ParseOutcome)
deriving DecidableEq, Repr

/-- One event at one interface (R8, R22, R23). -/
inductive Event where
  /-- A bit pattern of the table, as bytes: a command word at `cmd`, or a datagram image (R107). -/
  | word (bs : List Byte)
  /-- An operation that its interface selects (R107). -/
  | op (i : Instr)
  /-- `cfg`: the input `SLAVE_ADDR` takes a value (R22, R36). -/
  | cfg (slave : BitVec 2)
  /-- The block's reset input is asserted (R260). -/
  | reset
deriving DecidableEq, Repr

/-- All the state of the block (10_state.md R26 to R36), the parameters of the instance (R46; log 1), and three fields of
the model's own: `inputs` (log 7), `ret` (log 9), `fresh` (log 6). -/
structure State where
  /-- `CUR` and `ACC` (R26, R27). -/
  parser : Parser
  /-- `TXB[0..7]` (R31). -/
  txb    : Bytes8
  /-- `TXN` (R31). -/
  txn    : Fin 9
  /-- `RXB[0..7]` (R32). -/
  rxb    : Bytes8
  /-- `GOT` (R32). -/
  got    : Fin 9
  /-- `NEED` (R32). -/
  need   : Fin 9
  /-- `PH` (R33). -/
  ph     : Phase
  /-- `OPR` (R34). -/
  opr    : Op
  /-- `EXP` (R34). -/
  exp    : Byte
  /-- `RES` (R35). -/
  res    : Option TxnResult
  /-- `SLAVE_ADDR` (R36). -/
  slave  : BitVec 2
  /-- The instance's parameters (R9, R46): no step writes them. -/
  par    : Params
  /-- The events presented and not yet taken, oldest first. -/
  inputs : List Event
  /-- What the last event handed back. -/
  ret    : Returned
  /-- The counter free values are drawn with. -/
  fresh  : Nat
deriving DecidableEq, Repr

/-- Why the machine is stuck. -/
inductive Fault where
  /-- Raised by `step` when no event has arrived: the block has no step of its own accord (R20), a call that is never
  answered leaves it in its phase (R276, U8). Safe: nothing is proved of a run that goes on. -/
  | awaitingEvent
  /-- Raised by a parser byte at `CUR` = 8, for which there is no rule (R152) and which no reachable state holds (R27).
  Safe: nothing is proved of it. -/
  | cursorAtEight
deriving DecidableEq, Repr

/-- Why an event has no step ("no step", R204; D2). Each is safe: nothing is proved of a caller or a transport that
breaks the contract. -/
inductive Refusal where
  /-- Raised by `exec` for an instruction without a meaning in this model. Safe: nothing is proved of it. -/
  | notModelled (mnemonic : String)
  /-- Raised by a command outside `IDLE` (R184, U1). Safe. -/
  | commandWhileBusy
  /-- Raised by `FEED`, `PARSE_BYTE` and `PARSER_RESET` outside `IDLE` (R22, R267, U2). Safe. -/
  | parserPortClosed
  /-- Raised by `CANCEL` in `IDLE` (R202, R204). Safe. -/
  | nothingToCancel
  /-- Raised by a transport answer to a call that is not outstanding (R23, R204, U9). Safe. -/
  | answerNotOutstanding
  /-- Raised by an answer to `RxRead` with more bytes than the room offered (R23, R190, U9). Safe. -/
  | answerTooLong
  /-- Raised by `cfg` outside `IDLE` (R22, R283). Safe. -/
  | configWhileBusy
  /-- Raised by `step` for bytes that are no bit pattern of the table (R90, R107). Safe. -/
  | undecodable (e : DecodeError)
deriving DecidableEq, Repr

/-- What a step answers. -/
abbrev Result := Host.Outcome State Fault Refusal

/-- The block right after reset: `CUR` 0, `PH` `IDLE`, `GOT` and `NEED` 0, `RES` none (R47). The registers of R48 and
`SLAVE_ADDR` are at 0: DESIGN CHOICE (log 4, log 5). The parameters are the spec's default instance: PRESUMED (log 2).
No event is presented: DESIGN CHOICE (log 7). -/
def State.reset : State where
  parser := { cur := 0, acc := Bytes8.fill 0x00#8 }
  txb    := Bytes8.fill 0x00#8
  txn    := 0
  rxb    := Bytes8.fill 0x00#8
  got    := 0
  need   := 0
  ph     := .idle
  opr    := .read
  exp    := 0x00#8
  res    := none
  slave  := 0#2
  par    := Params.default
  inputs := []
  ret    := .nothing
  fresh  := 0

end Sys2Proof.Machine
end

