-- ==== Sys2Proof/Machine/Flags.lean ====
section
/-! DEFINITION. What plays the part of flags and status here (10_state.md R39): the codes of the errors, phases and
operations, the result word, and the conceptual state of the parser. -/

namespace Sys2Proof.Machine

/-- The numeric code of an error (R221). -/
def Error.code : Error → BitVec 4
  | .transportFailure _ => 1#4
  | .noResponse => 2#4
  | .invalidSync => 3#4
  | .invalidSourceAddress => 4#4
  | .checksumMismatch => 5#4
  | .shortBuffer => 6#4
  | .addressMismatch _ _ => 7#4
  | .unknownAddress _ => 8#4

/-- `FrameError`: the subset of the taxonomy the decoders can end with (R231). -/
def Error.isFrameError : Error → Bool
  | .invalidSync | .invalidSourceAddress | .checksumMismatch | .shortBuffer => true
  | .transportFailure _ | .noResponse | .addressMismatch _ _ | .unknownAddress _ => false

/-- The errors a transaction can end with: codes 1, 2, 5 and 7 (R198, R226), a mismatch between an address that was sent
and another one (R229). -/
def Error.endsTxn : Error → Bool
  | .transportFailure _ | .noResponse | .checksumMismatch => true
  | .addressMismatch expected actual => !expected.msb && expected != actual
  | .invalidSync | .invalidSourceAddress | .shortBuffer | .unknownAddress _ => false

/-- The code of a phase (R33). -/
def Phase.code : Phase → BitVec 3
  | .idle => 0#3
  | .wr => 1#3
  | .fl => 2#3
  | .echo => 3#3
  | .reply => 4#3

/-- The code of an operation (R34, R41). -/
def Op.code : Op → BitVec 1
  | .read => 0#1
  | .write => 1#1

/-- The 41-bit command word (R41). -/
def commandWord (op : Op) (reg : Byte) (data : Word) : BitVec 41 := op.code ++ reg ++ data

/-- The 52-bit result word: `code`, `expected`, `actual`, `data` (R42). -/
def TxnResult.word : TxnResult → BitVec 52
  | .okRead data => 0#4 ++ 0#8 ++ 0#8 ++ data
  | .okWrite => 0#4 ++ 0#8 ++ 0#8 ++ 0#32
  | .err (.addressMismatch expected actual) => 7#4 ++ expected ++ actual ++ 0#32
  | .err x => x.code ++ 0#8 ++ 0#8 ++ 0#32

/-- What the caller reads at `rsp`: the word of `RES`, where it is not `none` (R22, R42). -/
def resultWord (s : State) : Option (BitVec 52) := s.res.map TxnResult.word

/-- The three conceptual states of the parser (R29). -/
inductive Seeking where
  | seekingSync
  | seekingSource
  | accumulating
deriving DecidableEq, Repr

/-- The conceptual state read off the cursor (R29). -/
def Parser.seeking (q : Parser) : Seeking :=
  if q.cur = 0 then .seekingSync else if q.cur = 1 then .seekingSource else .accumulating

end Sys2Proof.Machine
end

