-- ==== Sys2Proof/Machine/Ops.lean ====
section
/-! DEFINITION. The named operations over the registers, which the meanings share: handing a value back, ending a
transaction, the room of an `RxRead`, collecting bytes, the parser's reset, the outstanding call, the block reset. -/

namespace Sys2Proof.Machine

/-- The event hands `v` back to its caller (R39; log 9). -/
def giveBack (v : Returned) (s : State) : State := { s with ret := v }

/-- `PH <- p` (R17, R33). -/
def goTo (p : Phase) (s : State) : State := { s with ph := p }

/-- The Parser State takes a new value. -/
def withParser (q : Parser) (s : State) : State := { s with parser := q }

/-- `SLAVE_ADDR` takes a value (R36). -/
def withSlave (a : BitVec 2) (s : State) : State := { s with slave := a }

/-- A transaction is dropped without a result: `RES <- none; PH <- IDLE` (R202). -/
def dropTxn (s : State) : State := { s with res := none, ph := .idle }

/-- `finish(r)`: the one way a transaction ends of itself, with its result or with an error (R183, R234). -/
def finish (r : TxnResult) (s : State) : State := { s with res := some r, ph := .idle }

/-- `PARSER_RESET` on the Parser State: the accumulator is not altered (R151). -/
def Parser.restart (q : Parser) : Parser := { q with cur := 0 }

/-- The room the next `RxRead` offers: `NEED - GOT` (R189). -/
def room (s : State) : Nat := s.need.val - s.got.val

/-- `RXB[GOT .. GOT+k-1] <- bs; GOT <- GOT + k` (R190). -/
def collect (bs : List Byte) (s : State) : State :=
  { s with rxb := s.rxb.store s.got.val bs, got := Fin.ofNat 9 (s.got.val + bs.length) }

/-- A read-exact of `n` bytes begins: `GOT <- 0; NEED <- n` (R32, R189). -/
def beginReadExact (n : Fin 9) (s : State) : State := { s with got := 0, need := n }

/-- The transport call that is outstanding, by the phase (R33). -/
def outstanding (s : State) : Option Call :=
  match s.ph with
  | .idle => none
  | .wr => some (.txWrite (s.txb.toList.take s.txn.val))
  | .fl => some .txFlush
  | .echo => some (.rxRead (room s))
  | .reply => some (.rxRead (room s))

/-- `cfg`: `SLAVE_ADDR` takes a value, in `IDLE` only (R22, R36, R283). -/
def configure (a : BitVec 2) (s : State) : Result :=
  match s.ph with
  | .idle => .next (withSlave a s)
  | .wr | .fl | .echo | .reply => .refused .configWhileBusy

/-- How many free values a block reset draws. -/
def drawnByReset : Nat := 25

/-- The block's reset input: the registers of R47 take their values, those of R48 are unspecified and take free values
(log 6); `SLAVE_ADDR` and the parameters are not reset (R260, R261, R262). -/
def blockReset (s : State) : State :=
  { s with
    parser := { cur := 0, acc := Bytes8.free s.fresh }
    txb    := Bytes8.free (s.fresh + 8)
    txn    := Config.freeCount s.fresh
    rxb    := Bytes8.free (s.fresh + 16)
    got    := 0
    need   := 0
    ph     := .idle
    opr    := if Config.freeBit s.fresh then .write else .read
    exp    := Config.freeByte (s.fresh + 24)
    res    := none
    fresh  := s.fresh + drawnByReset }

/-- `step` takes an event: it leaves the queue, and the return port is empty until the event hands something back
(log 7, log 9). -/
def takeEvent (rest : List Event) (s : State) : State := { s with inputs := rest, ret := .nothing }

end Sys2Proof.Machine
end

