-- ==== Sys2Proof/Machine/Codec.lean ====
section
/-! DEFINITION. The Datagram Codec (40_codec.md): its functions, pure in the arguments and the instance's parameters
(R120), and the meaning of each codec operation, which hands the function's value back and writes no register. -/

namespace Sys2Proof.Machine

/-- `ENCODE_READ` (R121): the slave address copied whole, the register address masked, the checksum recomputed. -/
def encodeRead (P : Params) (slave reg : Byte) : List Byte :=
  let covered := [P.sync, slave, maskReg reg]
  covered ++ [P.ck covered]

/-- `ENCODE_WRITE` (R124): the write flag always set, the data most significant byte first. -/
def encodeWrite (P : Params) (slave reg : Byte) (data : Word) : List Byte :=
  let covered := [P.sync, slave, flagReg reg] ++ be32 data
  covered ++ [P.ck covered]

/-- `DECODE_RESP` (R128): sync, sentinel, checksum, in that order. -/
def decodeResponse (P : Params) (b : Bytes8) : Fallible Response :=
  if b.b0 ≠ P.sync then .err .invalidSync
  else if b.b1 ≠ P.sentinel then .err .invalidSourceAddress
  else if P.verify b.toList = false then .err .checksumMismatch
  else .ok { regAddr := b.b2, data := unbe32 b.b3 b.b4 b.b5 b.b6 }

/-- `DECODE_RESP_SLICE` (R131): the length test first, then exactly the first eight bytes. -/
def decodeSlice (P : Params) (bs : List Byte) : Fallible Response :=
  match firstEight bs with
  | none => .err .shortBuffer
  | some b => decodeResponse P b

/-- `CLASSIFY_ADDR` (R135): the byte is not masked, and the error carries it unchanged. -/
def classify (P : Params) (raw : Byte) : Fallible Access :=
  match P.addrTable raw with
  | none => .err (.unknownAddress raw)
  | some a => .ok a

/-- `ENCODE_READ slave, reg` (R121). -/
def execEncodeRead (slave reg : Byte) (s : State) : Result :=
  .next (giveBack (.request (encodeRead s.par slave reg)) s)

/-- `ENCODE_WRITE slave, reg, data` (R124). -/
def execEncodeWrite (slave reg : Byte) (data : Word) (s : State) : Result :=
  .next (giveBack (.request (encodeWrite s.par slave reg data)) s)

/-- `DECODE_RESP bytes` (R128). -/
def execDecodeResp (b : Bytes8) (s : State) : Result :=
  .next (giveBack (.response (decodeResponse s.par b)) s)

/-- `DECODE_RESP_SLICE bytes` (R131). -/
def execDecodeRespSlice (bs : List Byte) (s : State) : Result :=
  .next (giveBack (.response (decodeSlice s.par bs)) s)

/-- `REQW_FIELDS request` (R133): nothing is validated. -/
def execReqwFields (b : Bytes8) (s : State) : Result :=
  .next (giveBack (.fields b.b1 (maskReg b.b2) (unbe32 b.b3 b.b4 b.b5 b.b6)) s)

/-- `CLASSIFY_ADDR raw` (R135). -/
def execClassifyAddr (raw : Byte) (s : State) : Result :=
  .next (giveBack (.access (classify s.par raw)) s)

end Sys2Proof.Machine
end

