-- ==== Sys2Proof/Machine/Datagram.lean ====
section
/-! DEFINITION. The three datagram formats as operations: each row's meaning is the rule the table names for it
(30_encoding.md R107; 40_codec.md R121, R124, R128). DEDUCED (log 11). -/

namespace Sys2Proof.Machine

/-- `REQ_READ`: the Request-Read of the image's fields is constructed; `SYNC` and the checksum are never taken from the
caller (R91, R121). -/
def execReqRead (_sync slave : Byte) (reg : BitVec 7) (_ck : Byte) (s : State) : Result :=
  .next (giveBack (.request (encodeRead s.par slave (zextReg reg))) s)

/-- `REQ_WRITE`: the Request-Write of the image's fields is constructed, in the same way (R92, R124). -/
def execReqWrite (_sync slave : Byte) (reg : BitVec 7) (data : Word) (_ck : Byte) (s : State) : Result :=
  .next (giveBack (.request (encodeWrite s.par slave (zextReg reg) data)) s)

/-- The eight bytes of a Response-Read image (R93). -/
def respImage (sync source reg : Byte) (data : Word) (ck : Byte) : Bytes8 :=
  ⟨sync, source, reg, data.extractLsb' 24 8, data.extractLsb' 16 8, data.extractLsb' 8 8, data.extractLsb' 0 8, ck⟩

/-- `RESP_READ`: the image's eight bytes are validated and decoded (R93, R128). -/
def execRespRead (sync source reg : Byte) (data : Word) (ck : Byte) (s : State) : Result :=
  .next (giveBack (.response (decodeResponse s.par (respImage sync source reg data ck))) s)

end Sys2Proof.Machine
end

