-- ==== Sys2Proof/Machine/Parser.lean ====
section
/-! DEFINITION. The Stream Parser (41_parser.md): one byte step, `FEED` as its iteration, and the meanings of the
parser's operations, open to the caller in `IDLE` only (10_state.md R22). -/

namespace Sys2Proof.Machine

/-- A byte looked at as a sync candidate with the cursor at 0 (R153, and the fall-back of R154). -/
def seekSync (P : Params) (b : Byte) (q : Parser) : Parser :=
  if b = P.sync then { acc := q.acc.set 0 b, cur := 1 } else { q with cur := 0 }

/-- A byte looked at as the source sentinel (R154). -/
def seekSource (P : Params) (b : Byte) (q : Parser) : Parser :=
  if b = P.sentinel then { acc := q.acc.set 1 b, cur := 2 } else seekSync P b q

/-- The outcome of decoding a full accumulator (R155). -/
def emitted : Fallible Response → ParseOutcome
  | .ok resp => .decodedDatagram resp
  | .err x => .decodeError x

/-- A byte stored without a test; the eighth is decoded and the cursor is 0 again (R155). -/
def accumulate (P : Params) (b : Byte) (q : Parser) : Parser × ParseOutcome :=
  let acc := q.acc.set q.cur.val b
  if q.cur = 7 then ({ acc := acc, cur := 0 }, emitted (decodeResponse P acc))
  else ({ acc := acc, cur := q.cur + 1 }, .noResultYet)

/-- `PARSE_BYTE b`: the cursor alone selects the rule (R152); at 8 there is none. -/
def parseByte (P : Params) (b : Byte) (q : Parser) : Option (Parser × ParseOutcome) :=
  if q.cur = 0 then some (seekSync P b q, .noResultYet)
  else if q.cur = 1 then some (seekSource P b q, .noResultYet)
  else if q.cur = 8 then none
  else some (accumulate P b q)

/-- The loop of `FEED` (R158), with the count of bytes consumed so far. -/
def feedFrom (P : Params) (consumed : Nat) (q : Parser) : List Byte → Option (Parser × Nat × ParseOutcome)
  | [] => some (q, consumed, .noResultYet)
  | b :: bs =>
    match parseByte P b q with
    | none => none
    | some (q', .noResultYet) => feedFrom P (consumed + 1) q' bs
    | some (q', o) => some (q', consumed + 1, o)

/-- `FEED bytes -> (consumed, outcome)`: it stops at the first result (R158). -/
def feed (P : Params) (q : Parser) (bs : List Byte) : Option (Parser × Nat × ParseOutcome) := feedFrom P 0 q bs

/-- The parser's direct port is open in `IDLE` only (R22, R267). -/
def atParserPort (s : State) (r : Result) : Result :=
  match s.ph with
  | .idle => r
  | .wr | .fl | .echo | .reply => .refused .parserPortClosed

/-- `PARSER_RESET` (R151). -/
def execParserReset (s : State) : Result :=
  atParserPort s (.next (withParser s.parser.restart s))

/-- `PARSE_BYTE b` (R152 to R156), as a byte at the parser's port. DEDUCED (log 16). -/
def execParseByte (b : Byte) (s : State) : Result :=
  atParserPort s
    (match parseByte s.par b s.parser with
     | none => .fault .cursorAtEight
     | some (q, o) => .next (giveBack (.outcome o) (withParser q s)))

/-- `FEED bytes` (R158). -/
def execFeed (bs : List Byte) (s : State) : Result :=
  atParserPort s
    (match feed s.par s.parser bs with
     | none => .fault .cursorAtEight
     | some (q, n, o) => .next (giveBack (.fed n o) (withParser q s)))

end Sys2Proof.Machine
end

