-- ==== Sys2Proof/Machine/Engine.lean ====
section
/-! DEFINITION. The Transaction Engine (42_transaction.md): accepting a command, the three kinds of transport answer,
the ends of echo and reply, and cancelling; together the table of R204. -/

namespace Sys2Proof.Machine

/-- The request a command puts in `TXB` (R185). -/
def requestOf (P : Params) (slave : BitVec 2) (op : Op) (reg : Byte) (data : Word) : List Byte :=
  match op with
  | .read => encodeRead P (zextSlave slave) reg
  | .write => encodeWrite P (zextSlave slave) reg data

/-- `TXN`: the length of the request (R31). -/
def requestLength : Op → Fin 9
  | .read => 4
  | .write => 8

/-- Accepting a command, in one event (R185): `RES` and the parser are reset, the operation and the masked address are
latched, the request is built, the write call is outstanding. -/
def acceptCommand (op : Op) (reg : Byte) (data : Word) (s : State) : State :=
  { s with
    res    := none
    parser := s.parser.restart
    opr    := op
    exp    := maskReg reg
    txb    := s.txb.store 0 (requestOf s.par s.slave op reg data)
    txn    := requestLength op
    ph     := .wr }

/-- The event `cmd(op, reg, data)`, accepted in `IDLE` only (R184). -/
def command (op : Op) (reg : Byte) (data : Word) (s : State) : Result :=
  match s.ph with
  | .idle => .next (acceptCommand op reg data s)
  | .wr | .fl | .echo | .reply => .refused .commandWhileBusy

/-- `READ_TXN reg`: the command of a read transaction (R185, R195); the data field is ignored (R186). DEDUCED (log 14):
the transaction then runs by the answers to its calls. -/
def execReadTxn (reg : Byte) (ignored : Word) (s : State) : Result := command .read reg ignored s

/-- `WRITE_TXN reg, data`: the command of a write transaction (R185, R200; log 14). -/
def execWriteTxn (reg : Byte) (data : Word) (s : State) : Result := command .write reg data s

/-- `WRITE_ALL`: the answer to `TxWrite` (R187). DEDUCED (log 15): the answer is the operand. -/
def execWriteAll (a : TxAnswer) (s : State) : Result :=
  match s.ph, a with
  | .wr, .ok => .next (goTo .fl s)
  | .wr, .err e => .next (finish (.err (.transportFailure e)) s)
  | .idle, _ | .fl, _ | .echo, _ | .reply, _ => .refused .answerNotOutstanding

/-- `FLUSH`: the answer to `TxFlush` (R188; log 15). -/
def execFlush (a : TxAnswer) (s : State) : Result :=
  match s.ph, a with
  | .fl, .ok => .next (goTo .echo (beginReadExact s.txn s))
  | .fl, .err e => .next (finish (.err (.transportFailure e)) s)
  | .idle, _ | .wr, _ | .echo, _ | .reply, _ => .refused .answerNotOutstanding

/-- The end of the echo (R192): a write is done, a read goes on to its reply. The echo's bytes are not looked at
(R193). -/
def echoComplete (s : State) : State :=
  match s.opr with
  | .write => finish .okWrite s
  | .read => goTo .reply (beginReadExact 8 s)

/-- The result of the parse of a reply and of the address comparison (R196, R197). -/
def replyResult (exp : Byte) : ParseOutcome → TxnResult
  | .decodedDatagram resp =>
      if resp.regAddr ≠ exp then .err (.addressMismatch exp resp.regAddr) else .okRead resp.data
  | .decodeError x => .err x
  | .noResultYet => .err .noResponse

/-- The end of the reply (R196): the eight bytes are fed to the parser in one call. -/
def replyComplete (s : State) : Result :=
  match feed s.par s.parser s.rxb.toList with
  | none => .fault .cursorAtEight
  | some (q, _, o) => .next (finish (replyResult s.exp o) (withParser q s))

/-- An answer to `RxRead` (R190): an error, no byte at all, some bytes within the room offered, or too many. When the
count is reached, `complete` says what the end of the phase does. -/
def readAnswer (complete : State → Result) (a : RxAnswer) (s : State) : Result :=
  match a with
  | .err e => .next (finish (.err (.transportFailure e)) s)
  | .ok [] => .next (finish (.err .noResponse) s)
  | .ok (b :: bs) =>
      if (b :: bs).length ≤ room s then
        let collected := collect (b :: bs) s
        if collected.got < collected.need then .next collected else complete collected
      else .refused .answerTooLong

/-- `READ_EXACT`: one turn of its loop, in `ECHO` and in `REPLY` (R189 to R191; log 15). -/
def execReadExact (a : RxAnswer) (s : State) : Result :=
  match s.ph with
  | .echo => readAnswer (fun t => .next (echoComplete t)) a s
  | .reply => readAnswer replyComplete a s
  | .idle | .wr | .fl => .refused .answerNotOutstanding

/-- `CANCEL`: the outstanding call is abandoned and no result is delivered; accepted outside `IDLE` only (R202). -/
def execCancel (s : State) : Result :=
  match s.ph with
  | .idle => .refused .nothingToCancel
  | .wr | .fl | .echo | .reply => .next (dropTxn s)

end Sys2Proof.Machine
end

