-- ==== Sys2Proof/Machine/Dispatch.lean ====
section
/-! DEFINITION. The dispatch: one arm per constructor of Instr, each one direct call of its meaning. -/

namespace Sys2Proof.Machine

def exec (i : Instr) (s : State) : Host.Outcome State Fault Refusal :=
  match i with
  | .reqRead sync slave reg ck => Sys2Proof.Machine.execReqRead sync slave reg ck s
  | .reqWrite sync slave reg data ck => Sys2Proof.Machine.execReqWrite sync slave reg data ck s
  | .respRead sync source reg data ck => Sys2Proof.Machine.execRespRead sync source reg data ck s
  | .readTxn reg ignored => Sys2Proof.Machine.execReadTxn reg ignored s
  | .writeTxn reg data => Sys2Proof.Machine.execWriteTxn reg data s
  | .encodeRead slave reg => Sys2Proof.Machine.execEncodeRead slave reg s
  | .encodeWrite slave reg data => Sys2Proof.Machine.execEncodeWrite slave reg data s
  | .decodeResp b => Sys2Proof.Machine.execDecodeResp b s
  | .decodeRespSlice bs => Sys2Proof.Machine.execDecodeRespSlice bs s
  | .reqwFields b => Sys2Proof.Machine.execReqwFields b s
  | .classifyAddr raw => Sys2Proof.Machine.execClassifyAddr raw s
  | .parserReset => Sys2Proof.Machine.execParserReset s
  | .parseByte b => Sys2Proof.Machine.execParseByte b s
  | .feed bs => Sys2Proof.Machine.execFeed bs s
  | .writeAll a => Sys2Proof.Machine.execWriteAll a s
  | .flush a => Sys2Proof.Machine.execFlush a s
  | .readExact a => Sys2Proof.Machine.execReadExact a s
  | .cancel => Sys2Proof.Machine.execCancel s

end Sys2Proof.Machine
end

