-- ==== Sys2Proof/Machine/Fetch.lean ====
section
/-! DEFINITION. What a step does with the event at the head of the queue (00_scope.md R8), and the placing of a table
row's word there. -/

namespace Sys2Proof.Machine

/-- Running one event, already taken from the queue (R22, R23): a bit pattern is decoded and executed, an operation is
executed, `cfg` and the block reset act on their registers. -/
def runEvent (e : Event) (s : State) : Result :=
  match e with
  | .word bs =>
    match decode s.par bs with
    | .ok i => exec i s
    | .error d => .refused (.undecodable d)
  | .op i => exec i s
  | .cfg a => configure a s
  | .reset => .next (blockReset s)

/-- The oldest event is taken and run; with none, the block waits (R20, R276; log 7). -/
def takeAndRun (s : State) : Result :=
  match s.inputs with
  | [] => .fault .awaitingEvent
  | e :: rest => runEvent e (takeEvent rest s)

/-- The word of a table row presented as the next event (log 12, log 19). -/
def presentWord (s : State) (nbits w : Nat) : State :=
  { s with inputs := .word (tableBytes nbits w) :: s.inputs }

end Sys2Proof.Machine
end

