-- ==== Sys2Proof/Machine/Step.lean ====
section
/-! DEFINITION. One step of the block: one event at one interface (00_scope.md R8). -/

namespace Sys2Proof.Machine

/-- One step (R8, R20). -/
def step (s : State) : Host.Outcome State Fault Refusal := takeAndRun s

/-- `s` with a table row's word where `step` takes its next event (log 19). -/
def State.withFetchWord (s : State) (nbits w : Nat) : State := presentWord s nbits w

end Sys2Proof.Machine
end

