-- ==== Sys2Proof/Machine/Sequential.lean ====
section
/-! DEFINITION. The two transactions as the source tells them, as sequential text (42_transaction.md R189, R195, R200),
over a list of the answers the environment gives in order; and the machine's own run on the same answers. R205 says that
the two are the same. -/

namespace Sys2Proof.Machine

/-- One answer of the environment (R23). -/
inductive Answer where
  | write (a : TxAnswer)
  | flush (a : TxAnswer)
  | read (a : RxAnswer)
deriving DecidableEq, Repr

/-- The event by which an answer arrives (R187, R188, R190). -/
def Answer.instr : Answer → Instr
  | .write a => .writeAll a
  | .flush a => .flush a
  | .read a => .readExact a

/-- How a piece of sequential text ends: with a value (`return`), with an error (`raise`), waiting for an answer that has
not come (R191), or at an answer that has no step (R204). -/
inductive Ended (α : Type) where
  | returned (v : α) (rest : List Answer)
  | raised (x : Error) (rest : List Answer)
  | waiting
  | noStep
deriving DecidableEq, Repr

/-- Sequential text: the transport calls it makes and how it ends, given the answers. -/
abbrev Text (α : Type) := List Answer → List Call × Ended α

/-- One piece of text after another: the second runs only when the first returned (R17, R79). -/
def Text.andThen {α β : Type} (m : Text α) (f : α → Text β) : Text β := fun answers =>
  match m answers with
  | (calls, .returned v rest) => ((calls ++ (f v rest).1), (f v rest).2)
  | (calls, .raised x rest) => (calls, .raised x rest)
  | (calls, .waiting) => (calls, .waiting)
  | (calls, .noStep) => (calls, .noStep)

/-- `a <- TxWrite(req); if a == err(e): raise TransportFailure(e)` (R195). -/
def txWriteText (req : List Byte) : Text Unit := fun answers =>
  ([.txWrite req],
   match answers with
   | [] => .waiting
   | .write .ok :: rest => .returned () rest
   | .write (.err e) :: rest => .raised (.transportFailure e) rest
   | .flush _ :: _ => .noStep
   | .read _ :: _ => .noStep)

/-- `a <- TxFlush(); if a == err(e): raise TransportFailure(e)` (R195). -/
def txFlushText : Text Unit := fun answers =>
  ([.txFlush],
   match answers with
   | [] => .waiting
   | .flush .ok :: rest => .returned () rest
   | .flush (.err e) :: rest => .raised (.transportFailure e) rest
   | .write _ :: _ => .noStep
   | .read _ :: _ => .noStep)

/-- The loop of `READ_EXACT(n)`, with the bytes collected so far (R189). -/
def readLoop (n : Nat) (collected : List Byte) : List Answer → List Call × Ended (List Byte)
  | [] => if collected.length < n then ([.rxRead (n - collected.length)], .waiting) else ([], .returned collected [])
  | a :: rest =>
    if collected.length < n then
      match a with
      | .read (.err e) => ([.rxRead (n - collected.length)], .raised (.transportFailure e) rest)
      | .read (.ok []) => ([.rxRead (n - collected.length)], .raised .noResponse rest)
      | .read (.ok (b :: bs)) =>
        if (b :: bs).length ≤ n - collected.length then
          ((.rxRead (n - collected.length) :: (readLoop n (collected ++ b :: bs) rest).1),
           (readLoop n (collected ++ b :: bs) rest).2)
        else ([.rxRead (n - collected.length)], .noStep)
      | .write _ => ([.rxRead (n - collected.length)], .noStep)
      | .flush _ => ([.rxRead (n - collected.length)], .noStep)
    else ([], .returned collected (a :: rest))

/-- `READ_EXACT N -> bytes` (R189). -/
def readExactText (n : Nat) : Text (List Byte) := fun answers => readLoop n [] answers

/-- How a transaction ends: with its result and the Parser State it leaves (R206), or as its text does. -/
inductive TxnEnd where
  | ended (r : TxnResult) (q : Parser) (rest : List Answer)
  | waiting
  | noStep
deriving DecidableEq, Repr

/-- Steps 1 and 2 of both transactions: write, flush, read and drop the echo (R182). -/
def requestText (req : List Byte) : Text (List Byte) :=
  (txWriteText req).andThen fun _ => txFlushText.andThen fun _ => readExactText req.length

/-- `READ_TXN(reg)` as sequential text (R195), from the Parser State `q`; `MemRead(reg, 4)` of R17. -/
def readTxnText (P : Params) (slave : BitVec 2) (q : Parser) (reg : Byte) (answers : List Answer) :
    List Call × TxnEnd :=
  match ((requestText (encodeRead P (zextSlave slave) reg)).andThen fun _ => readExactText 8) answers with
  | (calls, .returned rep rest) =>
    match feed P q.restart rep with
    | none => (calls, .noStep)
    | some (q', _, out) => (calls, .ended (replyResult (maskReg reg) out) q' rest)
  | (calls, .raised x rest) => (calls, .ended (.err x) q.restart rest)
  | (calls, .waiting) => (calls, .waiting)
  | (calls, .noStep) => (calls, .noStep)

/-- `WRITE_TXN(reg, data)` as sequential text (R200); `MemWrite(reg, 4, data)` of R17. -/
def writeTxnText (P : Params) (slave : BitVec 2) (q : Parser) (reg : Byte) (data : Word) (answers : List Answer) :
    List Call × TxnEnd :=
  match requestText (encodeWrite P (zextSlave slave) reg data) answers with
  | (calls, .returned _ rest) => (calls, .ended .okWrite q.restart rest)
  | (calls, .raised x rest) => (calls, .ended (.err x) q.restart rest)
  | (calls, .waiting) => (calls, .waiting)
  | (calls, .noStep) => (calls, .noStep)

/-- How the machine's run ends when no call is outstanding: the transaction's result is in `RES` (R206). -/
def endOf (s : State) (rest : List Answer) : TxnEnd :=
  match s.res with
  | some r => .ended r s.parser rest
  | none => .noStep

/-- The machine's own run on the same answers: while a call is outstanding, the next answer's event is executed. -/
def runAnswers (s : State) : List Answer → List Call × TxnEnd
  | [] =>
    match outstanding s with
    | none => ([], endOf s [])
    | some call => ([call], .waiting)
  | a :: rest =>
    match outstanding s with
    | none => ([], endOf s (a :: rest))
    | some call =>
      match exec a.instr s with
      | .next t => ((call :: (runAnswers t rest).1), (runAnswers t rest).2)
      | .fault _ => ([call], .noStep)
      | .refused _ => ([call], .noStep)

end Sys2Proof.Machine
end

