-- ==== Sys2Proof/Machine/Stream.lean ====
section
/-! DEFINITION. A byte stream given to the parser, in any cutting (41_parser.md R158 to R166). -/

namespace Sys2Proof.Machine

/-- A result found after `n` bytes of the stream joins the list; no result leaves it (R162). -/
def addResult (n : Nat) (o : ParseOutcome) (rs : List (Nat × ParseOutcome)) : List (Nat × ParseOutcome) :=
  match o with
  | .noResultYet => rs
  | .decodedDatagram _ => (n, o) :: rs
  | .decodeError _ => (n, o) :: rs

/-- `trace(bs)`: `PARSE_BYTE` on every byte in order, each result placed at the number of bytes parsed with it (R162),
and the Parser State at the end. -/
def parseTrace (P : Params) (q : Parser) (n : Nat) : List Byte → Option (Parser × List (Nat × ParseOutcome))
  | [] => some (q, [])
  | b :: bs =>
    match parseByte P b q with
    | none => none
    | some (q', o) =>
      match parseTrace P q' (n + 1) bs with
      | none => none
      | some (q'', rs) => some (q'', addResult (n + 1) o rs)

/-- A caller that delivers the stream by `FEED` calls, each offering at most the next number of `cuts` bytes and starting
at the first byte not consumed yet (R162): the Parser State, the results at the running total of `consumed`, and the
bytes not yet delivered. -/
def deliver (P : Params) (q : Parser) (n : Nat) (bs : List Byte) :
    List Nat → Option (Parser × List (Nat × ParseOutcome) × List Byte)
  | [] => some (q, [], bs)
  | cut :: cuts =>
    match feed P q (bs.take cut) with
    | none => none
    | some (q', consumed, o) =>
      match deliver P q' (n + consumed) (bs.drop consumed) cuts with
      | none => none
      | some (q'', rs, left) => some (q'', addResult (n + consumed) o rs, left)

end Sys2Proof.Machine
end

