-- ==== Sys2Proof/Safety.lean ====
section
/-! DEFINITION. The terms the claims use: the parser's invariant (10_state.md R28), the block's invariant, the registers
that a later step can read (R48), and the bytes of a valid response. -/

namespace Sys2Proof.Machine

/-- The invariant of the Parser State between two events (R27, R28). -/
structure Parser.Inv (P : Params) (q : Parser) : Prop where
  cursor : q.cur ≠ 8
  sync : q.cur ≠ 0 → q.acc.b0 = P.sync
  sentinel : q.cur ≠ 0 → q.cur ≠ 1 → q.acc.b1 = P.sentinel

/-- The request buffer holds the request of the latched operation and address, for the instance's slave address (R31,
R34, R185). -/
def RequestLatched (s : State) : Prop :=
  s.exp.msb = false ∧ s.txn = requestLength s.opr ∧
    match s.opr with
    | .read => s.txb.toList.take 4 = encodeRead s.par (zextSlave s.slave) s.exp
    | .write =>
      s.txb.toList =
        encodeWrite s.par (zextSlave s.slave) s.exp (unbe32 s.txb.b3 s.txb.b4 s.txb.b5 s.txb.b6)

/-- The block's invariant between two events: the parser's (R28); while a transaction runs, no result (R35), the cursor
at 0 (R185), the request latched (R31); the counts of the read-exact in progress (R32, R190); a result, when there is
one, of the kinds a transaction can end with (R226). -/
structure State.Inv (s : State) : Prop where
  parser : s.parser.Inv s.par
  busy : s.ph ≠ .idle → s.res = none ∧ s.parser.cur = 0 ∧ RequestLatched s
  echo : s.ph = .echo → s.need = s.txn ∧ s.got < s.need
  reply : s.ph = .reply → s.opr = .read ∧ s.need = 8 ∧ s.got < 8
  result : ∀ x, s.res = some (.err x) → x.endsTxn = true

/-- The bytes of a response that `DECODE_RESP` accepts with the value `resp` (R101). -/
def ValidResponse (P : Params) (resp : Response) (f : List Byte) : Prop :=
  f.length = 8 ∧ decodeSlice P f = .ok resp

/-- One bit of one register of eight flipped. -/
def flipBit (b : Bytes8) (i k : Nat) : Bytes8 := b.set i (b.toList.getD i 0 ^^^ (1#8 <<< k))

/-- The accumulator bytes below the cursor are equal: the only ones a later step can read before writing them (R28,
R48). -/
def Parser.SameLive (q r : Parser) : Prop :=
  q.cur = r.cur ∧ q.acc.toList.take q.cur.val = r.acc.toList.take q.cur.val

/-- Two states agree on everything a later step can read (R48, R203): in `IDLE` the engine's buffers, counts and latch
are dead; in `WR` the request, its length and the latch live; in `FL` the length and the latch; in `ECHO` the latch and
the counts; in `REPLY` the expected address, the counts and the bytes collected. -/
structure State.SameLive (s t : State) : Prop where
  ph : s.ph = t.ph
  parser : s.parser.SameLive t.parser
  res : s.res = t.res
  slave : s.slave = t.slave
  par : s.par = t.par
  inputs : s.inputs = t.inputs
  fresh : s.fresh = t.fresh
  request : s.ph = .wr → s.txb.toList.take s.txn.val = t.txb.toList.take t.txn.val
  length : s.ph = .wr ∨ s.ph = .fl → s.txn = t.txn
  latch : s.ph ≠ .idle → s.opr = t.opr ∧ s.exp = t.exp
  counts : s.ph = .echo ∨ s.ph = .reply → s.got = t.got ∧ s.need = t.need
  collected : s.ph = .reply → s.rxb.toList.take s.got.val = t.rxb.toList.take s.got.val

/-- Two steps end alike: next states that agree on everything live and hand back the same value, or the same stop. -/
def SameEnd : Result → Result → Prop
  | .next s, .next t => s.SameLive t ∧ s.ret = t.ret
  | .fault f, .fault g => f = g
  | .refused r, .refused r' => r = r'
  | _, _ => False

/-- The answers of a transport that takes the request, flushes, and delivers `chunks`, one list of bytes for each
`RxRead` (R207). -/
def goodAnswers (chunks : List (List Byte)) : List Answer :=
  .write .ok :: .flush .ok :: chunks.map fun bs => .read (.ok bs)

/-- A cutting of `bs` into non-empty pieces (R191). -/
def Pieces (bs : List Byte) (chunks : List (List Byte)) : Prop :=
  chunks.flatten = bs ∧ ∀ c ∈ chunks, c ≠ []

/-- The operations that touch no state and only hand a value back: the codec's (R120) and the datagram formats (R107). -/
def handsBackOnly : Instr → Bool
  | .reqRead .. | .reqWrite .. | .respRead .. | .encodeRead .. | .encodeWrite .. | .decodeResp _ | .decodeRespSlice _
  | .reqwFields _ | .classifyAddr _ => true
  | .readTxn .. | .writeTxn .. | .parserReset | .parseByte _ | .feed _ | .writeAll _ | .flush _ | .readExact _
  | .cancel => false

/-- The events of a list of answers, as they stand in the queue. -/
def answerEvents (answers : List Answer) : List Event := answers.map fun a => .op a.instr

/-- A correctly checksummed reply of the remote device for the register `reg` with the payload `data` (R93, R207). -/
def replyBytes (P : Params) (reg : Byte) (data : Word) : List Byte :=
  respHead P.sync P.sentinel reg data ++ [P.ck (respHead P.sync P.sentinel reg data)]

end Sys2Proof.Machine
end

