-- ==== Sys2Proof/Certificates/Slice0/Obligations.lean ====
section
/-! DEFINITION. The statements for the provers, in the order of spec/: reset and step, the bit patterns, the codec, the
parser, the engine, the whole machine. -/

open Sys2Proof Sys2Proof.Machine

/-! ### Reset and step -/

/-- R47: the registers with a defined value after reset. -/
def Obligations.ResetRegisters : Prop :=
  State.reset.parser.cur = 0 ∧ State.reset.ph = .idle ∧ State.reset.got = 0 ∧ State.reset.need = 0 ∧
    State.reset.res = none

/-- R28, R33, R35: the block's invariant holds after reset. -/
def Obligations.ResetMeetsInvariant : Prop := State.reset.Inv

/-- R8, R107: an operation at the head of the queue is executed; `step` adds that the event leaves the queue and the
return port is emptied (the model's choice, log 7 and log 9). -/
def Obligations.StepRunsOperation : Prop :=
  ∀ (s : State) (i : Instr) (rest : List Event), s.inputs = .op i :: rest →
    step s = exec i { s with inputs := rest, ret := .nothing }

/-- R41, R94, R107: bytes at the head of the queue that decode are executed as what they decode to, and bytes that do
not are refused by name; a table row's word placed by `withFetchWord` is such an event (log 12, log 19). -/
def Obligations.StepRunsDecodedWord : Prop :=
  (∀ (s : State) (bs : List Byte) (i : Instr) (rest : List Event), s.inputs = .word bs :: rest →
    decode s.par bs = .ok i → step s = exec i { s with inputs := rest, ret := .nothing }) ∧
  (∀ (s : State) (bs : List Byte) (d : DecodeError) (rest : List Event), s.inputs = .word bs :: rest →
    decode s.par bs = .error d → step s = .refused (.undecodable d)) ∧
  (∀ (s : State) (nbits w : Nat) (i : Instr), decode s.par (tableBytes nbits w) = .ok i →
    step (s.withFetchWord nbits w) = exec i { s with ret := .nothing })

/-- R22, R36, R283: `cfg` writes `SLAVE_ADDR` and nothing else, in `IDLE`; outside `IDLE` it has no step. The name of
the stop is the model's choice (log 8). -/
def Obligations.ConfigOnlyInIdle : Prop :=
  ∀ (s : State) (a : BitVec 2) (rest : List Event), s.inputs = .cfg a :: rest →
    (s.ph = .idle → step s = .next { s with slave := a, inputs := rest, ret := .nothing }) ∧
    (s.ph ≠ .idle → step s = .refused .configWhileBusy)

/-- R260 to R262: the block reset has a step in every phase, puts the registers of R47 at their values, delivers no
result, and leaves `SLAVE_ADDR` and the parameters; the registers of R48 are free. How the model holds that is its
choice (log 6). -/
def Obligations.BlockResetRegisters : Prop :=
  ∀ (s : State) (rest : List Event), s.inputs = .reset :: rest →
    ∃ t, step s = .next t ∧ t.parser.cur = 0 ∧ t.ph = .idle ∧ t.got = 0 ∧ t.need = 0 ∧ t.res = none ∧
      t.slave = s.slave ∧ t.par = s.par ∧ t.inputs = rest ∧ t.ret = .nothing

/-- R20: the block has no step of its own accord. That the model stops by the name `awaitingEvent` is its choice
(log 7). -/
def Obligations.NoStepOfItsOwn : Prop :=
  ∀ s : State, (∃ t, step s = .next t) → s.inputs ≠ []

/-! ### The bit patterns -/

/-- R91 to R94, R99: decoding the bytes of an image gives the image back, every field at every value, for each image
that the reading of R99 can tell. That a command word is six bytes is the model's choice (log 12), and so is its reading
of eight bytes (log 13). -/
def Obligations.DecodeOfEncode : Prop :=
  ∀ (P : Params) (i : Instr) (bs : List Byte), i.told P = true → encode i = some bs → decode P bs = .ok i

/-- R41, R90 to R94: every byte string that decodes is the encoding of what it decodes to, so no bit is dropped and no
two instructions share a pattern; and no bytes outside the table's lengths decode. That a command
word, 41 bits in R41, is six bytes is the model's choice (log 12), and so is its reading of eight bytes (log 13). -/
def Obligations.EncodeOfDecode : Prop :=
  ∀ (P : Params) (bs : List Byte) (i : Instr), decode P bs = .ok i →
    encode i = some bs ∧ i.told P = true ∧ (bs.length = 4 ∨ bs.length = 6 ∨ bs.length = 8)

/-- R91, R92, R93, R101: a well-formed request image is constructed to its own bytes, and a well-formed response image
decodes to its own fields. The meaning of an image row is the model's reading of the table (log 11). -/
def Obligations.GenuineImagesStand : Prop :=
  ∀ (s : State) (sync slave source : Byte) (reg : BitVec 7) (addr : Byte) (data : Word) (ck : Byte),
    (∀ bs, (Instr.reqRead sync slave reg ck).wf s.par = true → encode (.reqRead sync slave reg ck) = some bs →
      exec (.reqRead sync slave reg ck) s = .next { s with ret := .request bs }) ∧
    (∀ bs, (Instr.reqWrite sync slave reg data ck).wf s.par = true →
      encode (.reqWrite sync slave reg data ck) = some bs →
      exec (.reqWrite sync slave reg data ck) s = .next { s with ret := .request bs }) ∧
    ((Instr.respRead sync source addr data ck).wf s.par = true →
      exec (.respRead sync source addr data ck) s = .next { s with ret := .response (.ok ⟨addr, data⟩) })

/-- R94, R41 (sanity): words of the table, written out from the layouts, decode to what they stand for. The numbering
and the default instance are the model's choice (log 2, log 12). -/
def Obligations.WrittenWordsDecode : Prop :=
  decodeTableWord 32 0x05006F84 = some (.reqRead 0x05#8 0x00#8 0x6F#7 0x84#8) ∧
  decodeTableWord 64 0x050190_00061F0A_72 = some (.reqWrite 0x05#8 0x01#8 0x10#7 0x00061F0A#32 0x72#8) ∧
  decodeTableWord 64 0x05FF6F_80000000_D0 = some (.respRead 0x05#8 0xFF#8 0x6F#8 0x80000000#32 0xD0#8) ∧
  decodeTableWord 48 0x06F00000000 = some (.readTxn 0x6F#8 0#32) ∧
  decodeTableWord 48 0x11000061F0A = some (.writeTxn 0x10#8 0x00061F0A#32)

/-! ### The Datagram Codec -/

/-- R121: `ENCODE_READ`, in every state and for all operands. -/
def Obligations.EncodeReadBytes : Prop :=
  ∀ (s : State) (slave reg : Byte),
    exec (.encodeRead slave reg) s = .next
      { s with ret := .request [s.par.sync, slave, reg &&& 0x7F#8, s.par.ck [s.par.sync, slave, reg &&& 0x7F#8]] }

/-- R124: `ENCODE_WRITE`, in every state and for all operands. -/
def Obligations.EncodeWriteBytes : Prop :=
  ∀ (s : State) (slave reg : Byte) (data : Word),
    let covered := [s.par.sync, slave, (reg &&& 0x7F#8) ||| 0x80#8, data.extractLsb' 24 8, data.extractLsb' 16 8,
      data.extractLsb' 8 8, data.extractLsb' 0 8]
    exec (.encodeWrite slave reg data) s = .next { s with ret := .request (covered ++ [s.par.ck covered]) }

/-- R91, R92, R121, R124: a request image has the request of its fields constructed, whatever its sync byte and its
checksum say (log 11). -/
def Obligations.RequestImagesConstruct : Prop :=
  ∀ (s : State) (sync slave : Byte) (reg : BitVec 7) (data : Word) (ck : Byte),
    exec (.reqRead sync slave reg ck) s = exec (.encodeRead slave (0#1 ++ reg)) s ∧
    exec (.reqWrite sync slave reg data ck) s = exec (.encodeWrite slave (0#1 ++ reg) data) s ∧
    (∃ t, exec (.reqRead sync slave reg ck) s = .next t) ∧ (∃ t, exec (.reqWrite sync slave reg data ck) s = .next t)

/-- R123, R126: the laws of the two encoders. -/
def Obligations.EncodersVerify : Prop :=
  ∀ (P : Params) (slave reg : Byte) (data : Word),
    ((encodeRead P slave reg).length = 4 ∧ (encodeRead P slave reg)[0]? = some P.sync ∧
      (∃ b, (encodeRead P slave reg)[2]? = some b ∧ b.msb = false) ∧ P.verify (encodeRead P slave reg) = true) ∧
    ((encodeWrite P slave reg data).length = 8 ∧ (encodeWrite P slave reg data)[0]? = some P.sync ∧
      (∃ b, (encodeWrite P slave reg data)[2]? = some b ∧ b.msb = true) ∧ P.verify (encodeWrite P slave reg data) = true ∧
      ∃ b3 b4 b5 b6, (encodeWrite P slave reg data)[3]? = some b3 ∧ (encodeWrite P slave reg data)[4]? = some b4 ∧
        (encodeWrite P slave reg data)[5]? = some b5 ∧ (encodeWrite P slave reg data)[6]? = some b6 ∧
        unbe32 b3 b4 b5 b6 = data)

/-- R122 (a), R125 (a): register addresses that agree in their low seven bits give the same request, checksum
included. -/
def Obligations.AddressBitSevenDropped : Prop :=
  ∀ (P : Params) (slave reg reg' : Byte) (data : Word), reg.setWidth 7 = reg'.setWidth 7 →
    encodeRead P slave reg = encodeRead P slave reg' ∧ encodeWrite P slave reg data = encodeWrite P slave reg' data

/-- R128: `DECODE_RESP`, in every state and for all eight bytes: sync, sentinel, checksum, in that order. -/
def Obligations.DecodeRespOrder : Prop :=
  ∀ (s : State) (b : Bytes8),
    let r : Fallible Response :=
      if b.b0 ≠ s.par.sync then .err .invalidSync
      else if b.b1 ≠ s.par.sentinel then .err .invalidSourceAddress
      else if s.par.ck [b.b0, b.b1, b.b2, b.b3, b.b4, b.b5, b.b6] ≠ b.b7 then .err .checksumMismatch
      else .ok ⟨b.b2, unbe32 b.b3 b.b4 b.b5 b.b6⟩
    exec (.decodeResp b) s = .next { s with ret := .response r }

/-- R93, R101: exactly the byte strings with the sync byte, the sentinel and the right checksum decode, and a Response-Read
image does what `DECODE_RESP` does with its bytes. The meaning of the image row is the model's
reading of the table (log 11). -/
def Obligations.ResponseImagesDecode : Prop :=
  ∀ (s : State) (sync source reg : Byte) (data : Word) (ck : Byte),
    ∃ r, exec (.respRead sync source reg data ck) s = .next { s with ret := .response r } ∧
      (∀ resp, r = .ok resp ↔ sync = s.par.sync ∧ source = s.par.sentinel ∧
        ck = s.par.ck ([sync, source, reg] ++ be32 data) ∧ resp = ⟨reg, data⟩) ∧
      (∀ b, encode (.respRead sync source reg data ck) = some b → r = decodeSlice s.par b)

/-- R131, R132: `DECODE_RESP_SLICE` of fewer than eight bytes is `ShortBuffer`, and else `DECODE_RESP` of the first
eight, whatever follows them. -/
def Obligations.SliceTakesFirstEight : Prop :=
  ∀ (s : State) (bs : List Byte),
    (bs.length < 8 → exec (.decodeRespSlice bs) s = .next { s with ret := .response (.err .shortBuffer) }) ∧
    (∀ (b : Bytes8) (tail : List Byte), bs = b.toList ++ tail →
      exec (.decodeRespSlice bs) s = exec (.decodeResp b) s ∧ ∃ t, exec (.decodeRespSlice bs) s = .next t)

/-- R133: `REQW_FIELDS`, in every state and for all eight bytes; nothing is validated. -/
def Obligations.RequestFieldsRead : Prop :=
  ∀ (s : State) (b : Bytes8),
    exec (.reqwFields b) s =
      .next { s with ret := .fields b.b1 (b.b2 &&& 0x7F#8) (b.b3 ++ b.b4 ++ b.b5 ++ b.b6) }

/-- R134: reading back the fields of a Request-Write recovers the slave address, the un-flagged register address and the
data, and the write flag is set. -/
def Obligations.RequestRoundTrip : Prop :=
  ∀ (s : State) (slave reg : Byte) (data : Word),
    ∃ b, firstEight (encodeWrite s.par slave reg data) = some b ∧ b.toList = encodeWrite s.par slave reg data ∧
      b.b2.msb = true ∧ exec (.reqwFields b) s = .next { s with ret := .fields slave (reg &&& 0x7F#8) data }

/-- R135: `CLASSIFY_ADDR` looks the unmasked byte up; R75: with a table that keeps the spec's constraints, every address
above 0x72 is unknown and 0x6F is known. -/
def Obligations.ClassifyLooksUp : Prop :=
  ∀ (s : State) (raw : Byte),
    (s.par.addrTable raw = none →
      exec (.classifyAddr raw) s = .next { s with ret := .access (.err (.unknownAddress raw)) }) ∧
    (∀ a, s.par.addrTable raw = some a → exec (.classifyAddr raw) s = .next { s with ret := .access (.ok a) }) ∧
    (s.par.tableOk = true →
      (0x72 < raw.toNat → s.par.addrTable raw = none) ∧ (raw = 0x6F#8 → ∃ a, s.par.addrTable raw = some a))

/-- R130: one bit flipped among the first seven bytes of a valid response makes decoding fail, with the error of the
byte it is in, given the property of R13. -/
def Obligations.ChecksumSensitivity : Prop :=
  ∀ (s : State) (b : Bytes8) (resp : Response) (i k : Nat), s.par.CkSingleBit →
    decodeResponse s.par b = .ok resp → i < 7 → k < 8 →
    let x : Error := if i = 0 then .invalidSync else if i = 1 then .invalidSourceAddress else .checksumMismatch
    exec (.decodeResp (flipBit b i k)) s = .next { s with ret := .response (.err x) }

/-- R120 (frame): the codec operations and the datagram formats change nothing but what is handed back. The image rows
are the model's reading of the table (log 11). -/
def Obligations.CodecTouchesNoRegister : Prop :=
  ∀ (i : Instr) (s : State), handsBackOnly i = true → ∃ v, exec i s = .next { s with ret := v }

/-! ### The Stream Parser -/

/-- R151: `PARSER_RESET` writes `CUR` only. -/
def Obligations.ParserResetWritesCursor : Prop :=
  ∀ s : State, s.ph = .idle → exec .parserReset s = .next { s with parser := { s.parser with cur := 0 } }

/-- R152 to R155: `PARSE_BYTE` in `IDLE`, one clause for each cursor and class of byte, with all it leaves unchanged. -/
def Obligations.ParseByteTable : Prop :=
  ∀ (s : State) (b : Byte), s.ph = .idle →
    (s.parser.cur = 0 → b = s.par.sync → exec (.parseByte b) s =
      .next { s with parser := ⟨1, s.parser.acc.set 0 b⟩, ret := .outcome .noResultYet }) ∧
    (s.parser.cur = 0 → b ≠ s.par.sync → exec (.parseByte b) s =
      .next { s with parser := ⟨0, s.parser.acc⟩, ret := .outcome .noResultYet }) ∧
    (s.parser.cur = 1 → b = s.par.sentinel → exec (.parseByte b) s =
      .next { s with parser := ⟨2, s.parser.acc.set 1 b⟩, ret := .outcome .noResultYet }) ∧
    (s.parser.cur = 1 → b ≠ s.par.sentinel → b = s.par.sync → exec (.parseByte b) s =
      .next { s with parser := ⟨1, s.parser.acc.set 0 b⟩, ret := .outcome .noResultYet }) ∧
    (s.parser.cur = 1 → b ≠ s.par.sentinel → b ≠ s.par.sync → exec (.parseByte b) s =
      .next { s with parser := ⟨0, s.parser.acc⟩, ret := .outcome .noResultYet }) ∧
    (2 ≤ s.parser.cur → s.parser.cur ≤ 6 → exec (.parseByte b) s =
      .next { s with parser := ⟨s.parser.cur + 1, s.parser.acc.set s.parser.cur.val b⟩, ret := .outcome .noResultYet }) ∧
    (s.parser.cur = 7 → exec (.parseByte b) s =
      .next { s with
        parser := ⟨0, s.parser.acc.set 7 b⟩
        ret := .outcome
          (match decodeResponse s.par (s.parser.acc.set 7 b) with
           | .ok resp => .decodedDatagram resp
           | .err x => .decodeError x) })

/-- R156, last row: with the parser's invariant the eighth byte is compared with the checksum of the seven before it, and
nothing else can fail. -/
def Obligations.EighthByteIsTheChecksum : Prop :=
  ∀ (s : State) (b : Byte), s.ph = .idle → s.parser.Inv s.par → s.parser.cur = 7 → exec (.parseByte b) s =
    .next { s with
      parser := ⟨0, s.parser.acc.set 7 b⟩
      ret := .outcome
        (if s.par.ck (s.parser.acc.toList.take 7) = b then
          .decodedDatagram ⟨s.parser.acc.b2, unbe32 s.parser.acc.b3 s.parser.acc.b4 s.parser.acc.b5 s.parser.acc.b6⟩
         else .decodeError .checksumMismatch) }

/-- R27, R152: there is no rule for a byte at `CUR` = 8, which no state of the invariant has; there the model stops by a
name, its own choice (log 17). -/
def Obligations.CursorEightHasNoRule : Prop :=
  ∀ (s : State) (b : Byte) (bs : List Byte), s.ph = .idle → s.parser.cur = 8 →
    exec (.parseByte b) s = .fault .cursorAtEight ∧ exec (.feed (b :: bs)) s = .fault .cursorAtEight ∧ ¬ s.Inv

/-- R158: `FEED` of no byte changes nothing; of a byte and more, it does what `PARSE_BYTE` does with the byte, and either
hands its result back with the count 1, or goes on with the rest and counts the byte. -/
def Obligations.FeedIteratesParseByte : Prop :=
  ∀ s : State, s.ph = .idle →
    exec (.feed []) s = .next { s with ret := .fed 0 .noResultYet } ∧
    ∀ (b : Byte) (bs : List Byte) (t : State) (o : ParseOutcome),
      exec (.parseByte b) s = .next t → t.ret = .outcome o →
      (o ≠ .noResultYet → exec (.feed (b :: bs)) s = .next { t with ret := .fed 1 o }) ∧
      (o = .noResultYet → ∀ (u : State) (n : Nat) (o' : ParseOutcome), exec (.feed bs) t = .next u → u.ret = .fed n o' →
        exec (.feed (b :: bs)) s = .next { u with ret := .fed (n + 1) o' })

/-- R158, R159: `FEED` in `IDLE` answers with the Parser State and its count; an empty input changes nothing; the count
is at most the length, and the whole length without a result; a result leaves the cursor at 0 and takes at least the
bytes the frame lacked. Nothing but the Parser State and what is handed back changes. -/
def Obligations.FeedCountsBytes : Prop :=
  ∀ (s : State) (bs : List Byte), s.ph = .idle → s.parser.cur ≠ 8 →
    ∃ q n o, feed s.par s.parser bs = some (q, n, o) ∧
      exec (.feed bs) s = .next { s with parser := q, ret := .fed n o } ∧
      (bs = [] → q = s.parser ∧ n = 0 ∧ o = .noResultYet) ∧ n ≤ bs.length ∧ (o = .noResultYet → n = bs.length) ∧
      (o ≠ .noResultYet → q.cur = 0 ∧ 8 ≤ n + s.parser.cur.val)

/-- R28, R157: `FEED` keeps the parser's invariant, and the one error it can report is `ChecksumMismatch`. -/
def Obligations.ParserReportsOnlyChecksum : Prop :=
  ∀ (P : Params) (q : Parser) (bs : List Byte), q.Inv P →
    ∃ q' n o, feed P q bs = some (q', n, o) ∧ q'.Inv P ∧ ∀ x, o = .decodeError x → x = .checksumMismatch

/-- R162: every way of cutting a stream into `FEED` calls gives the same results at the same places and the same final
Parser State, those of the byte-by-byte trace. -/
def Obligations.FragmentationInvariance : Prop :=
  ∀ (P : Params) (q : Parser) (bs : List Byte) (cuts : List Nat), q.cur ≠ 8 →
    ∃ q' rs left, deliver P q 0 bs cuts = some (q', rs, left) ∧ left <:+ bs ∧
      parseTrace P q 0 (bs.take (bs.length - left.length)) = some (q', rs)

/-- R163: from `CUR` = 0, bytes free of the sync byte and then a valid response: all of them are consumed and the
response is the result, in one call and in any cutting. -/
def Obligations.Resynchronisation : Prop :=
  ∀ (s : State) (garbage f : List Byte) (resp : Response), s.ph = .idle → s.parser.cur = 0 →
    (∀ b ∈ garbage, b ≠ s.par.sync) → ValidResponse s.par resp f →
    (∃ q, exec (.feed (garbage ++ f)) s =
        .next { s with parser := q, ret := .fed (garbage.length + 8) (.decodedDatagram resp) } ∧
      q.cur = 0 ∧ q.acc.toList = f) ∧
    ∀ cuts q rs, deliver s.par s.parser 0 (garbage ++ f) cuts = some (q, rs, []) →
      rs = [(garbage.length + 8, .decodedDatagram resp)]

/-- R164: from `CUR` = 0, with the sync byte different from the sentinel, a run of `k` sync bytes and then the rest of a
valid response: the response is the result after `k + 7` bytes. -/
def Obligations.FalseSyncRecovery : Prop :=
  ∀ (s : State) (f : List Byte) (resp : Response) (k : Nat), s.ph = .idle → s.parser.cur = 0 →
    s.par.sync ≠ s.par.sentinel → ValidResponse s.par resp f → 1 ≤ k →
    ∃ q, exec (.feed (List.replicate k s.par.sync ++ f.tail)) s =
        .next { s with parser := q, ret := .fed (k + 7) (.decodedDatagram resp) } ∧ q.cur = 0 ∧ q.acc.toList = f

/-- R166: from `CUR` = 0, when the parser has run over the first `i` bytes of a stream and stands at `CUR` = 0, or at 1
with the sync byte different from the sentinel, and the next eight bytes are a valid response, then its next result is
that response, on the eighth of them. -/
def Obligations.ParserFindsFrame : Prop :=
  ∀ (P : Params) (q q' : Parser) (bs : List Byte) (i : Nat) (rs : List (Nat × ParseOutcome)) (resp : Response),
    q.cur = 0 → parseTrace P q 0 (bs.take i) = some (q', rs) →
    (q'.cur = 0 ∨ q'.cur = 1 ∧ P.sync ≠ P.sentinel) → ValidResponse P resp ((bs.drop i).take 8) →
    ∃ q'', parseTrace P q 0 (bs.take (i + 8)) = some (q'', rs ++ [(i + 8, .decodedDatagram resp)]) ∧ q''.cur = 0

/-! ### The Transaction Engine -/

/-- R185: accepting a command in `IDLE`: the read branch, then the write branch. -/
def Obligations.CommandAccepted : Prop :=
  ∀ (s : State) (reg : Byte) (data : Word), s.ph = .idle →
    let slave : Byte := 0#6 ++ s.slave
    let request := [s.par.sync, slave, reg &&& 0x7F#8, s.par.ck [s.par.sync, slave, reg &&& 0x7F#8]]
    let covered := [s.par.sync, slave, (reg &&& 0x7F#8) ||| 0x80#8, data.extractLsb' 24 8, data.extractLsb' 16 8,
      data.extractLsb' 8 8, data.extractLsb' 0 8]
    exec (.readTxn reg data) s = .next { s with
      res := none
      parser := { s.parser with cur := 0 }
      opr := .read
      exp := reg &&& 0x7F#8
      txb := s.txb.store 0 request
      txn := 4
      ph := .wr } ∧
    exec (.writeTxn reg data) s = .next { s with
      res := none
      parser := { s.parser with cur := 0 }
      opr := .write
      exp := reg &&& 0x7F#8
      txb := ⟨s.par.sync, slave, (reg &&& 0x7F#8) ||| 0x80#8, data.extractLsb' 24 8, data.extractLsb' 16 8,
        data.extractLsb' 8 8, data.extractLsb' 0 8, s.par.ck covered⟩
      txn := 8
      ph := .wr }

/-- R186: a read ignores the data field and bit 7 of the address. -/
def Obligations.ReadIgnoresDataAndBitSeven : Prop :=
  ∀ (s : State) (reg reg' : Byte) (x y : Word), reg.setWidth 7 = reg'.setWidth 7 →
    exec (.readTxn reg x) s = exec (.readTxn reg' y) s

/-- R184, R204, R267: the events that have no step in their phase, and the answers to a call that is not outstanding. That
PARSE_BYTE is presented by itself, and is closed outside `IDLE` as `FEED` is, is the model's reading (log 16); the names
of the stops are its choice (log 8). -/
def Obligations.OutOfPhaseHasNoStep : Prop :=
  ∀ s : State,
    (s.ph ≠ .idle → ∀ (reg : Byte) (d : Word) (b : Byte) (bs : List Byte),
      exec (.readTxn reg d) s = .refused .commandWhileBusy ∧ exec (.writeTxn reg d) s = .refused .commandWhileBusy ∧
      exec (.feed bs) s = .refused .parserPortClosed ∧ exec .parserReset s = .refused .parserPortClosed ∧
      exec (.parseByte b) s = .refused .parserPortClosed) ∧
    (s.ph = .idle → exec .cancel s = .refused .nothingToCancel) ∧
    (s.ph ≠ .wr → ∀ a, exec (.writeAll a) s = .refused .answerNotOutstanding) ∧
    (s.ph ≠ .fl → ∀ a, exec (.flush a) s = .refused .answerNotOutstanding) ∧
    (s.ph ≠ .echo → s.ph ≠ .reply → ∀ a, exec (.readExact a) s = .refused .answerNotOutstanding)

/-- R187: the answer to `TxWrite`. -/
def Obligations.WriteAllAnswered : Prop :=
  ∀ s : State, s.ph = .wr →
    exec (.writeAll .ok) s = .next { s with ph := .fl } ∧
    ∀ e, exec (.writeAll (.err e)) s = .next { s with res := some (.err (.transportFailure e)), ph := .idle }

/-- R188: the answer to `TxFlush`. -/
def Obligations.FlushAnswered : Prop :=
  ∀ s : State, s.ph = .fl →
    exec (.flush .ok) s = .next { s with got := 0, need := s.txn, ph := .echo } ∧
    ∀ e, exec (.flush (.err e)) s = .next { s with res := some (.err (.transportFailure e)), ph := .idle }

/-- R190: an answer to `RxRead` that does not complete the count, in `ECHO` and in `REPLY`: an error, no byte, some bytes
of those still wanted, or more bytes than the room offered, which has no step. The name of that stop is the model's choice (log 8). -/
def Obligations.ReadExactAnswered : Prop :=
  ∀ s : State, s.ph = .echo ∨ s.ph = .reply →
    (∀ e, exec (.readExact (.err e)) s = .next { s with res := some (.err (.transportFailure e)), ph := .idle }) ∧
    exec (.readExact (.ok [])) s = .next { s with res := some (.err .noResponse), ph := .idle } ∧
    (∀ bs, bs ≠ [] → s.got.val + bs.length < s.need.val →
      ∃ g : Fin 9, g.val = s.got.val + bs.length ∧
        exec (.readExact (.ok bs)) s = .next { s with rxb := s.rxb.store s.got.val bs, got := g }) ∧
    (∀ bs, s.need.val < s.got.val + bs.length → bs ≠ [] → exec (.readExact (.ok bs)) s = .refused .answerTooLong)

/-- R190: a storing answer puts its bytes, in order, at `RXB[GOT]` on, and leaves every other byte of `RXB`. -/
def Obligations.ReceiveBufferBytes : Prop :=
  ∀ (s t : State) (bs : List Byte), exec (.readExact (.ok bs)) s = .next t → bs ≠ [] →
    (∀ i, i < s.got.val ∨ s.got.val + bs.length ≤ i → t.rxb.toList[i]? = s.rxb.toList[i]?) ∧
    (∀ i, i < bs.length → t.rxb.toList[s.got.val + i]? = bs[i]?)

/-- R192: the answer that completes the echo: a write is done, a read goes on to its reply. -/
def Obligations.EchoCompletes : Prop :=
  ∀ (s : State) (bs : List Byte), s.ph = .echo → bs ≠ [] → s.got.val + bs.length = s.need.val →
    (s.opr = .write → exec (.readExact (.ok bs)) s =
      .next { s with rxb := s.rxb.store s.got.val bs, got := s.need, res := some .okWrite, ph := .idle }) ∧
    (s.opr = .read → exec (.readExact (.ok bs)) s =
      .next { s with rxb := s.rxb.store s.got.val bs, got := 0, need := 8, ph := .reply })

/-- R193: the bytes of the echo are not looked at: answers of the same length lead to states that differ in `RXB`
alone. -/
def Obligations.EchoNotLookedAt : Prop :=
  ∀ (s t : State) (bs bs' : List Byte), s.ph = .echo → bs.length = bs'.length →
    exec (.readExact (.ok bs)) s = .next t →
    ∃ r, exec (.readExact (.ok bs')) s = .next { t with rxb := r }

/-- R196, R197: the answer that completes the reply: misframed bytes are `NoResponse`, then the checksum, then the
address, then the payload is delivered; only `RXB`, `GOT`, the Parser State, `RES` and `PH` change. -/
def Obligations.ReplyCompletes : Prop :=
  ∀ (s : State) (bs : List Byte), s.Inv → s.ph = .reply → bs ≠ [] → s.got.val + bs.length = 8 →
    let r := s.rxb.store s.got.val bs
    ∃ q, exec (.readExact (.ok bs)) s = .next { s with
        rxb := r, got := 8, ph := .idle, parser := q
        res := some
          (if r.b0 ≠ s.par.sync ∨ r.b1 ≠ s.par.sentinel then .err .noResponse
           else if s.par.ck [r.b0, r.b1, r.b2, r.b3, r.b4, r.b5, r.b6] ≠ r.b7 then .err .checksumMismatch
           else if r.b2 ≠ s.exp then .err (.addressMismatch s.exp r.b2)
           else .okRead (unbe32 r.b3 r.b4 r.b5 r.b6)) } ∧
      (r.b0 = s.par.sync → r.b1 = s.par.sentinel → q = ⟨0, r⟩)

/-- R202: `CANCEL` outside `IDLE` writes `RES` and `PH` and keeps every other register; in `IDLE` it has no step. -/
def Obligations.CancelKeepsRegisters : Prop :=
  ∀ s : State, (s.ph ≠ .idle → exec .cancel s = .next { s with res := none, ph := .idle }) ∧
    (s.ph = .idle → ∀ t, exec .cancel s ≠ .next t)

/-- R185, R187, R188, R190, R200 (frame): commands leave the receive side, the accumulator bytes and the configuration;
answers leave the request side and the latch, the Parser State too unless a reply is being read, and the receive side
too but for an answer to `RxRead` and for the counts a flush sets; and none hands a value back. -/
def Obligations.EngineFrame : Prop :=
  ∀ (s t : State) (i : Instr), exec i s = .next t →
    ((∃ r d, i = .readTxn r d ∨ i = .writeTxn r d) →
      t.rxb = s.rxb ∧ t.got = s.got ∧ t.need = s.need ∧ t.parser.acc = s.parser.acc ∧ t.slave = s.slave ∧
      t.par = s.par ∧ t.inputs = s.inputs ∧ t.ret = s.ret ∧ t.fresh = s.fresh) ∧
    ((∃ a, i = .writeAll a) ∨ (∃ a, i = .flush a) ∨ (∃ a, i = .readExact a) →
      t.txb = s.txb ∧ t.txn = s.txn ∧ t.opr = s.opr ∧ t.exp = s.exp ∧ t.slave = s.slave ∧ t.par = s.par ∧
      t.inputs = s.inputs ∧ t.ret = s.ret ∧ t.fresh = s.fresh ∧ (s.ph ≠ .reply → t.parser = s.parser)) ∧
    ((∃ a, i = .writeAll a) → t.rxb = s.rxb ∧ t.got = s.got ∧ t.need = s.need) ∧
    ((∃ a, i = .flush a) → t.rxb = s.rxb)

/-! ### The whole machine -/

/-- R28, R31 to R35, R226: every step keeps the block's invariant. -/
def Obligations.StepKeepsInvariant : Prop :=
  ∀ s t : State, s.Inv → step s = .next t → t.Inv

/-- R38, R204: the moves of `PH` in one step; only a read has a reply. -/
def Obligations.PhaseMoves : Prop :=
  ∀ s t : State, step s = .next t →
    t.ph = s.ph ∨ t.ph = .idle ∨ (s.ph = .idle ∧ t.ph = .wr) ∨ (s.ph = .wr ∧ t.ph = .fl) ∨
      (s.ph = .fl ∧ t.ph = .echo) ∨ (s.ph = .echo ∧ t.ph = .reply ∧ s.opr = .read)

/-- R46, R84, R261, R283: no step writes the parameters, and `SLAVE_ADDR` changes by `cfg` alone, in `IDLE`. -/
def Obligations.ParametersNeverWritten : Prop :=
  ∀ s t : State, step s = .next t →
    t.par = s.par ∧ (t.slave ≠ s.slave → s.ph = .idle ∧ ∃ a rest, s.inputs = .cfg a :: rest ∧ t.slave = a)

/-- R23, R31, R33, R79: the call outstanding in each phase: none in `IDLE`; the whole request, 4 or 8 bytes of it, for the
latched address; the flush; and room for 1 to 8 bytes, never more than are still wanted. -/
def Obligations.OutstandingCalls : Prop :=
  ∀ s : State, s.Inv →
    (s.ph = .idle ↔ outstanding s = none) ∧
    (∀ bs, outstanding s = some (.txWrite bs) → s.ph = .wr ∧
      ((s.opr = .read ∧ bs.length = 4 ∧ bs = encodeRead s.par (0#6 ++ s.slave) s.exp) ∨
       (s.opr = .write ∧ bs.length = 8 ∧ ∃ d, bs = encodeWrite s.par (0#6 ++ s.slave) s.exp d))) ∧
    (outstanding s = some .txFlush → s.ph = .fl) ∧
    (∀ cap, outstanding s = some (.rxRead cap) → (s.ph = .echo ∨ s.ph = .reply) ∧ 1 ≤ cap ∧ cap ≤ 8 ∧
      cap + s.got.val = s.need.val)

/-- R48, R203: no step reads a register before it is written: states that agree on the registers a step can read make the
same call and step alike. -/
def Obligations.DeadRegistersUnread : Prop :=
  ∀ s t : State, s.Inv → s.SameLive t → outstanding s = outstanding t ∧ SameEnd (step s) (step t)

/-- R42, R226: the result word's code is 0, 1, 2, 5 or 7 in every state that meets the invariant. -/
def Obligations.ResultCodes : Prop :=
  ∀ (s : State) (w : BitVec 52), s.Inv → resultWord s = some w →
    w.extractLsb' 48 4 = 0#4 ∨ w.extractLsb' 48 4 = 1#4 ∨ w.extractLsb' 48 4 = 2#4 ∨ w.extractLsb' 48 4 = 5#4 ∨
      w.extractLsb' 48 4 = 7#4

/-- R42: the fields of the result word. -/
def Obligations.ResultWordFields : Prop :=
  ∀ r : TxnResult,
    (r.word.extractLsb' 0 32 = match r with | .okRead d => d | .okWrite => 0#32 | .err _ => 0#32) ∧
    (r.word.extractLsb' 32 8 = match r with | .err (.addressMismatch _ a) => a | _ => 0#8) ∧
    (r.word.extractLsb' 40 8 = match r with | .err (.addressMismatch e _) => e | _ => 0#8) ∧
    (r.word.extractLsb' 48 4 = match r with | .err x => x.code | .okRead _ => 0#4 | .okWrite => 0#4)

/-- R195, R205: an accepted read command and the answers that follow do what the sequential text of `READ_TXN` does: the
same calls in the same order, the same result, the same Parser State, the same answers left over. That the operation is the
acceptance of its command, and the transaction runs by its answers, is the model's reading (log 14). -/
def Obligations.ReadTransactionIsItsText : Prop :=
  ∀ (s : State) (reg : Byte) (ignored : Word) (answers : List Answer), s.ph = .idle →
    ∃ t, exec (.readTxn reg ignored) s = .next t ∧
      runAnswers t answers = readTxnText s.par s.slave s.parser reg answers

/-- R200, R205: the same for a write, on the same reading of the operation (log 14). -/
def Obligations.WriteTransactionIsItsText : Prop :=
  ∀ (s : State) (reg : Byte) (data : Word) (answers : List Answer), s.ph = .idle →
    ∃ t, exec (.writeTxn reg data) s = .next t ∧
      runAnswers t answers = writeTxnText s.par s.slave s.parser reg data answers

/-- R191 (c): a read transaction waits for at most fourteen answers and a write for at most ten. -/
def Obligations.TransactionsAreBounded : Prop :=
  ∀ (s t : State) (reg : Byte) (d : Word) (answers : List Answer),
    (exec (.readTxn reg d) s = .next t → (runAnswers t answers).2 = .waiting → answers.length < 14) ∧
    (exec (.writeTxn reg d) s = .next t → (runAnswers t answers).2 = .waiting → answers.length < 10)

/-- R207, §8 property 7: with a transport that echoes every byte verbatim, in any pieces, and then supplies a correctly
checksummed reply for the register, in any pieces, a write followed at once by a read succeeds, and the read delivers the
reply's payload; for every slave address, register address and payload. The events stand in the queue of log 7. -/
def Obligations.WriteThenReadSucceeds : Prop :=
  ∀ (s : State) (reg : Byte) (data value ignored : Word) (echo1 echo2 reply : List (List Byte)) (rest : List Event),
    s.ph = .idle →
    Pieces (encodeWrite s.par (0#6 ++ s.slave) reg data) echo1 →
    Pieces (encodeRead s.par (0#6 ++ s.slave) reg) echo2 →
    Pieces (replyBytes s.par (reg &&& 0x7F#8) value) reply →
    s.inputs = (.op (.writeTxn reg data) :: answerEvents (goodAnswers echo1)) ++
      ((.op (.readTxn reg ignored) :: answerEvents (goodAnswers (echo2 ++ reply))) ++ rest) →
    ∃ t u, Sys2Proof.core.run (3 + echo1.length) s = .next t ∧ t.res = some .okWrite ∧ t.ph = .idle ∧
      Sys2Proof.core.run (3 + echo2.length + reply.length) t = .next u ∧ u.res = some (.okRead value) ∧ u.ph = .idle ∧
      u.parser.cur = 0 ∧ u.inputs = rest
end

