-- ==== Sys2Proof/Laws/Bytes.lean ====
section
/-! SUPPORT. Laws of the byte helpers: the two byte orders are inverse (20_memory.md R63), the masks (R96), and reads after
writes in a file of eight byte registers. -/

namespace Sys2Proof

/-- `unbe32` puts its bytes side by side, the first on top. -/
theorem unbe32_eq_append (b0 b1 b2 b3 : Byte) : unbe32 b0 b1 b2 b3 = (b0 ++ b1 ++ b2 ++ b3 : BitVec 32) := by
  have above (b : Byte) (j : Nat) (h : 8 ≤ j) : b.getLsbD j = false := BitVec.getLsbD_of_ge b j h
  apply BitVec.eq_of_getLsbD_eq
  intro i hi
  simp only [unbe32, BitVec.getLsbD_or, BitVec.getLsbD_shiftLeft, BitVec.getLsbD_setWidth, BitVec.getLsbD_append]
  rcases Nat.lt_or_ge i 8 with h | h
  · simp [h, hi, show i < 24 by omega, show i < 16 by omega]
  rcases Nat.lt_or_ge i 16 with h' | h'
  · simp [hi, Nat.not_lt.2 h, h', show i < 24 by omega, show i - 8 < 8 by omega, show i - 8 < 32 by omega, above b3 i h]
  rcases Nat.lt_or_ge i 24 with h'' | h''
  · simp [hi, Nat.not_lt.2 h, Nat.not_lt.2 h', h'', show ¬ i - 8 < 8 by omega, show i - 8 - 8 = i - 16 by omega,
      show i - 16 < 8 by omega, show i - 16 < 32 by omega, show i - 8 < 32 by omega, above b3 i h,
      above b2 (i - 8) (by omega)]
  · simp [hi, Nat.not_lt.2 h, Nat.not_lt.2 h', Nat.not_lt.2 h'', show ¬ i - 8 < 8 by omega,
      show i - 8 - 8 = i - 16 by omega, show ¬ i - 16 < 8 by omega, show i - 16 - 8 = i - 24 by omega,
      show i - 24 < 32 by omega, show i - 16 < 32 by omega, show i - 8 < 32 by omega, above b3 i h,
      above b2 (i - 8) (by omega), above b1 (i - 16) (by omega)]

/-- `unbe32(be32(d)) = d` (R63). -/
@[simp] theorem unbe32_be32 (d : Word) :
    unbe32 (d.extractLsb' 24 8) (d.extractLsb' 16 8) (d.extractLsb' 8 8) (d.extractLsb' 0 8) = d := by
  apply BitVec.eq_of_getLsbD_eq
  intro i hi
  simp only [unbe32, BitVec.getLsbD_or, BitVec.getLsbD_shiftLeft, BitVec.getLsbD_setWidth, BitVec.getLsbD_extractLsb']
  rcases Nat.lt_or_ge i 8 with h | h
  · simp [h, hi, show i < 24 by omega, show i < 16 by omega]
  rcases Nat.lt_or_ge i 16 with h' | h'
  · simp [hi, Nat.not_lt.2 h, h', show i < 24 by omega, show i - 8 < 8 by omega, show i - 8 < 32 by omega,
      show 8 + (i - 8) = i by omega]
  rcases Nat.lt_or_ge i 24 with h'' | h''
  · simp [hi, Nat.not_lt.2 h, Nat.not_lt.2 h', h'', show ¬ i - 8 < 8 by omega, show i - 16 < 8 by omega,
      show i - 16 < 32 by omega, show i - 8 < 32 by omega, show 16 + (i - 16) = i by omega]
  · simp [hi, Nat.not_lt.2 h, Nat.not_lt.2 h', Nat.not_lt.2 h'', show ¬ i - 8 < 8 by omega, show ¬ i - 16 < 8 by omega,
      show i - 24 < 8 by omega, show i - 24 < 32 by omega, show i - 16 < 32 by omega, show i - 8 < 32 by omega,
      show 24 + (i - 24) = i by omega]

/-- The four bytes of `unbe32` are its arguments: the other direction of R63. -/
theorem be32_unbe32 (b0 b1 b2 b3 : Byte) : be32 (unbe32 b0 b1 b2 b3) = [b0, b1, b2, b3] := by
  rw [unbe32_eq_append]
  simp only [be32, List.cons.injEq, and_true]
  refine ⟨?_, ?_, ?_, ?_⟩ <;> apply BitVec.eq_of_getLsbD_eq <;> intro i hi <;>
    simp only [BitVec.getLsbD_extractLsb', BitVec.getLsbD_append, hi, decide_true, Bool.true_and]
  · simp [show ¬ 24 + i < 8 by omega, show ¬ 24 + i - 8 < 8 by omega, show ¬ 24 + i - 8 - 8 < 8 by omega,
      show 24 + i - 8 - 8 - 8 = i by omega]
  · simp [show ¬ 16 + i < 8 by omega, show ¬ 16 + i - 8 < 8 by omega, show 16 + i - 8 - 8 = i by omega, hi]
  · simp [hi]
  · simp [hi]

@[simp] theorem be32_length (d : Word) : (be32 d).length = 4 := rfl

/-- Masking twice is masking once (R70). -/
@[simp] theorem maskReg_maskReg (r : Byte) : maskReg (maskReg r) = maskReg r := by
  simp [maskReg, BitVec.and_assoc]

@[simp] theorem flagReg_maskReg (r : Byte) : flagReg (maskReg r) = flagReg r := by simp [flagReg]

/-- A masked register address has bit 7 clear (R96). -/
@[simp] theorem maskReg_msb (r : Byte) : (maskReg r).msb = false := by
  simp [maskReg, BitVec.msb_and, show (0x7F#8).msb = false by decide]

/-- A flagged register address has bit 7 set (R96). -/
@[simp] theorem flagReg_msb (r : Byte) : (flagReg r).msb = true := by
  simp [flagReg, BitVec.msb_or, show (0x80#8).msb = true by decide]

/-- The mask keeps the low seven bits (R96). -/
theorem maskReg_eq_zextReg (r : Byte) : maskReg r = zextReg (r.setWidth 7) := by
  revert r; decide

theorem maskReg_zextReg (r : BitVec 7) : maskReg (zextReg r) = zextReg r := by
  revert r; decide

/-- The flag comes off again (R133). -/
theorem maskReg_flagReg (r : Byte) : maskReg (flagReg r) = maskReg r := by
  revert r; decide

/-- The seven address bits of a write request's byte 2 (R92). -/
@[simp] theorem setWidth_flagReg_zextReg (r : BitVec 7) : (flagReg (zextReg r)).setWidth 7 = r := by
  revert r; decide

/-- A byte with bit 7 clear is its seven address bits (R91). -/
theorem zextReg_setWidth : ∀ b : Byte, b.msb = false → zextReg (b.setWidth 7) = b := by decide

/-- A byte with bit 7 set is its seven address bits and the flag (R92). -/
theorem flagReg_zextReg_setWidth : ∀ b : Byte, b.msb = true → flagReg (zextReg (b.setWidth 7)) = b := by decide

namespace Bytes8

@[simp] theorem toList_length (r : Bytes8) : r.toList.length = 8 := rfl

theorem toList_injective {r r' : Bytes8} (h : r.toList = r'.toList) : r = r' := by
  cases r; cases r'; simpa [toList] using h

/-- Writing register `i` is writing index `i` of the list of registers. -/
theorem toList_set (r : Bytes8) (i : Nat) (v : Byte) : (r.set i v).toList = r.toList.set i v := by
  rcases i with _ | _ | _ | _ | _ | _ | _ | _ | i <;> rfl

/-- Storing `bs` from index `i` on leaves the indices outside and puts `bs` inside. -/
theorem getElem?_store (r : Bytes8) (i : Nat) (bs : List Byte) (j : Nat) (hj : j < 8) :
    (r.store i bs).toList[j]? = if i ≤ j ∧ j < i + bs.length then bs[j - i]? else r.toList[j]? := by
  induction bs generalizing r i with
  | nil => simp [store, show ¬ (i ≤ j ∧ j < i) by omega]
  | cons b bs ih =>
    rw [store, ih, toList_set, List.getElem?_set, List.length_cons]
    by_cases h1 : i = j
    · subst h1
      simp [hj, show ¬ (i + 1 ≤ i) by omega]
    · by_cases h2 : i + 1 ≤ j ∧ j < i + 1 + bs.length
      · simp [h2, show i ≤ j ∧ j < i + (bs.length + 1) by omega, show j - i = (j - (i + 1)) + 1 by omega]
      · rw [if_neg h2, if_neg h1, if_neg (by omega)]

/-- A storing of `bs` from index `i` on, seen as the whole list (R32). -/
theorem toList_store (r : Bytes8) (i : Nat) (bs : List Byte) (h : i + bs.length ≤ 8) :
    (r.store i bs).toList = r.toList.take i ++ bs ++ r.toList.drop (i + bs.length) := by
  apply List.ext_getElem?
  intro j
  by_cases hj : j < 8
  · rw [getElem?_store _ _ _ _ hj]
    by_cases h1 : j < i
    · rw [if_neg (by omega), List.append_assoc, List.getElem?_append_left (by simp; omega), List.getElem?_take_of_lt h1]
    · by_cases h2 : j < i + bs.length
      · rw [if_pos ⟨by omega, h2⟩, List.append_assoc, List.getElem?_append_right (by simp; omega),
          List.getElem?_append_left (by simp; omega)]
        simp [show i ≤ 8 by omega]
      · rw [if_neg (by omega), List.getElem?_append_right (by simp; omega)]
        simp [show min i 8 = i by omega, show i + bs.length + (j - (i + bs.length)) = j by omega]
  · rw [List.getElem?_eq_none (by simp; omega), List.getElem?_eq_none (by simp; omega)]

/-- The bytes below the new count after a storing (R190). -/
theorem take_store (r : Bytes8) (i : Nat) (bs : List Byte) (h : i + bs.length ≤ 8) :
    (r.store i bs).toList.take (i + bs.length) = r.toList.take i ++ bs := by
  rw [toList_store _ _ _ h, List.take_append_of_le_length (by simp; omega)]
  exact List.take_of_length_le (by simp)

/-- A storing of eight bytes from index 0 replaces the file. -/
theorem toList_store_eight (r : Bytes8) (bs : List Byte) (h : bs.length = 8) : (r.store 0 bs).toList = bs := by
  rw [toList_store _ _ _ (by omega)]
  simp [h, toList]

end Bytes8

/-- The first eight bytes of a file are the file. -/
@[simp] theorem firstEight_toList (b : Bytes8) (tail : List Byte) : firstEight (b.toList ++ tail) = some b := rfl

theorem firstEight_eq_none {bs : List Byte} : firstEight bs = none ↔ bs.length < 8 := by
  constructor
  · intro h
    by_contra hl
    match bs, h, hl with
    | _ :: _ :: _ :: _ :: _ :: _ :: _ :: _ :: _, h, _ => simp [firstEight] at h
    | [], _, hl | [_], _, hl | [_, _], _, hl | [_, _, _], _, hl | [_, _, _, _], _, hl | [_, _, _, _, _], _, hl
    | [_, _, _, _, _, _], _, hl | [_, _, _, _, _, _, _], _, hl => simp at hl
  · intro h
    match bs, h with
    | [], _ | [_], _ | [_, _], _ | [_, _, _], _ | [_, _, _, _], _ | [_, _, _, _, _], _ | [_, _, _, _, _, _], _
    | [_, _, _, _, _, _, _], _ => rfl
    | _ :: _ :: _ :: _ :: _ :: _ :: _ :: _ :: _, h => simp at h; omega

/-- Eight bytes are a file. -/
theorem exists_toList {bs : List Byte} (h : bs.length = 8) : ∃ b : Bytes8, b.toList = bs := by
  match bs, h with
  | [b0, b1, b2, b3, b4, b5, b6, b7], _ => exact ⟨⟨b0, b1, b2, b3, b4, b5, b6, b7⟩, rfl⟩

end Sys2Proof
end

