-- ==== Sys2Proof/Laws/Checksum.lean ====
section
/-! SUPPORT. Laws of the checksum: `VERIFY` of a list with its last byte (00_scope.md R12), and that the default `CK_TMC` has
the property of R13, because it is linear over exclusive or. -/

namespace Sys2Proof

/-- `VERIFY` of a list and its trailing byte (R12). -/
theorem Params.verify_concat (P : Params) (bs : List Byte) (c : Byte) : P.verify (bs ++ [c]) = (P.ck bs == c) := by
  simp [Params.verify]

theorem crcBit_xor (c c' : Byte) (b b' : Bool) : crcBit (c ^^^ c') (b ^^ b') = crcBit c b ^^^ crcBit c' b' := by
  have swap (x y z : Byte) : x ^^^ (y ^^^ z) = y ^^^ (x ^^^ z) := by
    rw [← BitVec.xor_assoc, BitVec.xor_comm x y, BitVec.xor_assoc]
  have cancel (x y : Byte) : x ^^^ (x ^^^ y) = y := by rw [← BitVec.xor_assoc]; simp
  simp only [crcBit, BitVec.msb_xor, BitVec.shiftLeft_xor_distrib]
  cases c.msb <;> cases c'.msb <;> cases b <;> cases b' <;>
    simp [BitVec.xor_assoc, BitVec.xor_comm _ 7#8, swap _ 7#8, cancel]

theorem crcBits_xor (n : Nat) (c c' b b' : Byte) :
    crcBits n (c ^^^ c') (b ^^^ b') = crcBits n c b ^^^ crcBits n c' b' := by
  induction n generalizing c c' b b' with
  | zero => rfl
  | succ n ih =>
    simp only [crcBits]
    rw [BitVec.getLsbD_xor, crcBit_xor, BitVec.ushiftRight_xor_distrib, ih]

theorem foldl_crcBits_xor (c c' : Byte) (bs bs' : List Byte) (h : bs.length = bs'.length) :
    (List.zipWith (· ^^^ ·) bs bs').foldl (crcBits 8) (c ^^^ c') =
      bs.foldl (crcBits 8) c ^^^ bs'.foldl (crcBits 8) c' := by
  induction bs generalizing c c' bs' with
  | nil => cases bs' <;> simp_all
  | cons b bs ih =>
    cases bs' with
    | nil => simp at h
    | cons b' bs' => simpa [crcBits_xor] using ih _ _ bs' (by simpa using h)

/-- `CK_TMC` is linear over exclusive or, for messages of one length. -/
theorem crcTmc_xor (bs bs' : List Byte) (h : bs.length = bs'.length) :
    crcTmc (List.zipWith (· ^^^ ·) bs bs') = crcTmc bs ^^^ crcTmc bs' := by
  simpa [crcTmc] using foldl_crcBits_xor 0 0 bs bs' h

/-- The message with one bit set. -/
def oneBit (i k : Nat) : List Byte := (List.replicate 7 (0#8 : Byte)).set i (1#8 <<< k)

theorem crcTmc_oneBit : ∀ i < 7, ∀ k < 8, crcTmc (oneBit i k) ≠ 0#8 := by
  intro i hi k hk
  interval_cases i <;> interval_cases k <;> decide +kernel

theorem modify_eq_zipWith (bs : List Byte) (h : bs.length = 7) (i k : Nat) (hi : i < 7) :
    bs.modify i (· ^^^ (1#8 <<< k)) = List.zipWith (· ^^^ ·) bs (oneBit i k) := by
  match bs, h with
  | [b0, b1, b2, b3, b4, b5, b6], _ =>
    rcases i with _ | _ | _ | _ | _ | _ | _ | i <;> first | omega | simp [oneBit]

/-- The default checksum has the one property required of `CK` (R13, R14). -/
theorem default_ckSingleBit (P : Params) (hP : P.checksum = .crc8) : P.CkSingleBit := by
  intro bs hb i hi k hk heq
  simp only [Params.ck, hP] at heq
  rw [modify_eq_zipWith bs hb i k hi, crcTmc_xor _ _ (by simp [hb, oneBit])] at heq
  exact crcTmc_oneBit i hi k hk (by simpa using congrArg (crcTmc bs ^^^ ·) heq)

end Sys2Proof
end

