-- ==== Sys2Proof/Laws/Codec.lean ====
section
/-! SUPPORT. What the codec's functions do, once: the checksum test of a response, when a response decodes, and the
requests as lists (40_codec.md). -/

namespace Sys2Proof.Machine

/-- `VERIFY` of eight bytes compares the last with the checksum of the first seven (R12, R128). -/
theorem verify_toList (P : Params) (b : Bytes8) :
    P.verify b.toList = (P.ck [b.b0, b.b1, b.b2, b.b3, b.b4, b.b5, b.b6] == b.b7) :=
  P.verify_concat [b.b0, b.b1, b.b2, b.b3, b.b4, b.b5, b.b6] b.b7

/-- When eight bytes decode, and to what (R101). -/
theorem decodeResponse_eq_ok {P : Params} {b : Bytes8} {resp : Response} :
    decodeResponse P b = .ok resp ↔
      b.b0 = P.sync ∧ b.b1 = P.sentinel ∧ P.ck [b.b0, b.b1, b.b2, b.b3, b.b4, b.b5, b.b6] = b.b7 ∧
        resp = ⟨b.b2, unbe32 b.b3 b.b4 b.b5 b.b6⟩ := by
  simp only [decodeResponse, verify_toList]
  split_ifs with h0 h1 h2
  · simp [h0]
  · simp [h1]
  · simp_all
  · simp only [ne_eq, not_not] at h0 h1
    simp only [beq_eq_false_iff_ne, ne_eq, not_not] at h2
    simp [h0, h1, ← h2, eq_comm]

/-- With the right sync byte and sentinel only the checksum can fail (R157). -/
theorem decodeResponse_framed {P : Params} {b : Bytes8} (h0 : b.b0 = P.sync) (h1 : b.b1 = P.sentinel) :
    decodeResponse P b =
      if P.ck [b.b0, b.b1, b.b2, b.b3, b.b4, b.b5, b.b6] = b.b7 then .ok ⟨b.b2, unbe32 b.b3 b.b4 b.b5 b.b6⟩
      else .err .checksumMismatch := by
  simp only [decodeResponse, verify_toList, h0, h1]
  split_ifs <;> simp_all

@[simp] theorem encodeRead_length (P : Params) (slave reg : Byte) : (encodeRead P slave reg).length = 4 := rfl

@[simp] theorem encodeWrite_length (P : Params) (slave reg : Byte) (data : Word) :
    (encodeWrite P slave reg data).length = 8 := rfl

/-- The mask of a read request's address is idempotent (R96). -/
@[simp] theorem encodeRead_maskReg (P : Params) (slave reg : Byte) :
    encodeRead P slave (maskReg reg) = encodeRead P slave reg := by simp [encodeRead]

@[simp] theorem encodeWrite_maskReg (P : Params) (slave reg : Byte) (data : Word) :
    encodeWrite P slave (maskReg reg) data = encodeWrite P slave reg data := by simp [encodeWrite]

/-- A valid response as a file of eight bytes. -/
theorem decodeSlice_eq_ok {P : Params} {bs : List Byte} {resp : Response} (hl : bs.length = 8) :
    decodeSlice P bs = .ok resp ↔ ∃ b : Bytes8, b.toList = bs ∧ decodeResponse P b = .ok resp := by
  obtain ⟨b, rfl⟩ := exists_toList hl
  have h : firstEight b.toList = some b := by simpa using firstEight_toList b []
  simp only [decodeSlice, h]
  constructor
  · exact fun hd => ⟨b, rfl, hd⟩
  · rintro ⟨b', hb, hd⟩
    exact Bytes8.toList_injective hb ▸ hd

end Sys2Proof.Machine
end

