-- ==== Sys2Proof/Laws/Parser.lean ====
section
/-! SUPPORT. What a parser byte step and `FEED` can do, once (41_parser.md): later proofs cite these cases and do not unfold
the step. -/

namespace Sys2Proof.Machine

variable {P : Params} {q q' : Parser} {b : Byte} {bs : List Byte} {n k : Nat} {o : ParseOutcome}

/-- Everything one byte step can do (R153 to R155). -/
theorem parseByte_cases (h : parseByte P b q = some (q', o)) :
    (q.cur.val ≤ 1 ∧ o = .noResultYet ∧ b = P.sync ∧ q' = ⟨1, q.acc.set 0 b⟩) ∨
    (q.cur.val ≤ 1 ∧ o = .noResultYet ∧ q' = ⟨0, q.acc⟩) ∨
    (q.cur = 1 ∧ o = .noResultYet ∧ b = P.sentinel ∧ q' = ⟨2, q.acc.set 1 b⟩) ∨
    (2 ≤ q.cur.val ∧ q.cur.val ≤ 6 ∧ o = .noResultYet ∧ q' = ⟨q.cur + 1, q.acc.set q.cur.val b⟩) ∨
    (q.cur = 7 ∧ q' = ⟨0, q.acc.set 7 b⟩ ∧ o = emitted (decodeResponse P (q.acc.set 7 b))) := by
  obtain ⟨cur, acc⟩ := q
  simp only [parseByte, seekSource, seekSync, accumulate] at h
  fin_cases cur <;> simp at h <;> (try split_ifs at h) <;> simp_all

/-- A byte step is defined at every cursor below 8 (R152). -/
theorem parseByte_total (P : Params) (b : Byte) (hq : q.cur ≠ 8) : ∃ q' o, parseByte P b q = some (q', o) := by
  simp only [parseByte, if_neg hq]
  split_ifs <;> exact ⟨_, _, rfl⟩

theorem emitted_ne (r : Fallible Response) : emitted r ≠ .noResultYet := by cases r <;> simp [emitted]

/-- A byte step never leaves the cursor at 8 (R27). -/
theorem parseByte_cursor (h : parseByte P b q = some (q', o)) : q'.cur ≠ 8 := by
  obtain ⟨cur, acc⟩ := q
  rcases parseByte_cases h with ⟨-, -, -, rfl⟩ | ⟨-, -, rfl⟩ | ⟨-, -, -, rfl⟩ | ⟨h1, h2, -, rfl⟩ | ⟨-, rfl, -⟩ <;>
    simp_all
  fin_cases cur <;> simp_all

/-- A byte step adds at most one to the cursor, and gives a result only at the eighth byte, leaving 0 (R155, R159). -/
theorem parseByte_count (h : parseByte P b q = some (q', o)) :
    (o = .noResultYet ∧ q'.cur.val ≤ q.cur.val + 1) ∨ (o ≠ .noResultYet ∧ q.cur = 7 ∧ q'.cur = 0) := by
  obtain ⟨cur, acc⟩ := q
  rcases parseByte_cases h with ⟨-, rfl, -, rfl⟩ | ⟨-, rfl, rfl⟩ | ⟨h1, rfl, -, rfl⟩ | ⟨h1, h2, rfl, rfl⟩ |
    ⟨h1, rfl, rfl⟩ <;> simp_all [emitted_ne]
  fin_cases cur <;> simp_all

/-- A byte step keeps the parser's invariant (R28). -/
theorem parseByte_inv (hi : q.Inv P) (h : parseByte P b q = some (q', o)) : q'.Inv P := by
  obtain ⟨cur, acc⟩ := q
  obtain ⟨-, h0, h1⟩ := hi
  rcases parseByte_cases h with ⟨-, -, rfl, rfl⟩ | ⟨-, -, rfl⟩ | ⟨hc, -, rfl, rfl⟩ | ⟨hc, hc', -, rfl⟩ | ⟨-, rfl, -⟩ <;>
    refine ⟨parseByte_cursor h, ?_, ?_⟩ <;> simp_all [Bytes8.set] <;> fin_cases cur <;> simp_all

/-- The one error a byte step can report is a wrong checksum (R157). -/
theorem parseByte_error (hi : q.Inv P) (h : parseByte P b q = some (q', o)) {x : Error} (ho : o = .decodeError x) :
    x = .checksumMismatch := by
  obtain ⟨cur, acc⟩ := q
  obtain ⟨-, h0, h1⟩ := hi
  rcases parseByte_cases h with ⟨-, hn, -, -⟩ | ⟨-, hn, -⟩ | ⟨-, hn, -, -⟩ | ⟨-, -, hn, -⟩ | ⟨hc, -, hn⟩
  · simp [hn] at ho
  · simp [hn] at ho
  · simp [hn] at ho
  · simp [hn] at ho
  · simp only at hc
    subst hc
    rw [hn, decodeResponse_framed (by simpa [Bytes8.set] using h0) (by simpa [Bytes8.set] using h1)] at ho
    split_ifs at ho <;> simp_all [emitted]

/-- The count of `FEED` starts where it is told to. -/
theorem feedFrom_eq (P : Params) (k : Nat) (q : Parser) (bs : List Byte) :
    feedFrom P k q bs = (feed P q bs).map fun r => (r.1, k + r.2.1, r.2.2) := by
  have key : ∀ k n q, feedFrom P (k + n) q bs = (feedFrom P n q bs).map fun r => (r.1, k + r.2.1, r.2.2) := by
    induction bs with
    | nil => intro k n q; rfl
    | cons b bs ih =>
      intro k n q
      simp only [feedFrom]
      rcases parseByte P b q with _ | ⟨q', _ | _ | _⟩
      · rfl
      · simpa [Nat.add_assoc] using ih k (n + 1) q'
      · rfl
      · rfl
  simpa [feed] using key k 0 q

/-- `FEED` of a byte that gives no result goes on with the rest (R158). -/
theorem feed_cons_none (h : parseByte P b q = some (q', .noResultYet)) :
    feed P q (b :: bs) = (feed P q' bs).map fun r => (r.1, r.2.1 + 1, r.2.2) := by
  rw [feed, feedFrom, h]
  simp only
  rw [feedFrom_eq]
  simp [Nat.add_comm]

/-- `FEED` stops at the first result (R158). -/
theorem feed_cons_result (h : parseByte P b q = some (q', o)) (ho : o ≠ .noResultYet) :
    feed P q (b :: bs) = some (q', 1, o) := by
  rw [feed, feedFrom, h]
  cases o <;> simp_all

@[simp] theorem feed_nil (P : Params) (q : Parser) : feed P q [] = some (q, 0, .noResultYet) := rfl

/-- What holds of the Parser State before `FEED` and is kept by every byte step holds after it. -/
theorem feed_induction {M : Parser → Prop} (hstep : ∀ b q q' o, M q → parseByte P b q = some (q', o) → M q')
    (hq : M q) (h : feed P q bs = some (q', n, o)) : M q' := by
  induction bs generalizing q n with
  | nil => simp at h; exact h.1 ▸ hq
  | cons b bs ih =>
    rcases hp : parseByte P b q with _ | ⟨q1, o1⟩
    · simp [feed, feedFrom, hp] at h
    · by_cases ho : o1 = .noResultYet
      · subst ho
        rw [feed_cons_none hp] at h
        rcases hf : feed P q1 bs with _ | ⟨q2, m, o2⟩
        · simp [hf] at h
        · simp only [hf, Option.map_some, Option.some.injEq, Prod.mk.injEq] at h
          exact ih (n := m) (hstep _ _ _ _ hq hp) (by simp [hf, h.1, h.2.2])
      · rw [feed_cons_result hp ho] at h
        simp at h
        exact h.1 ▸ hstep _ _ _ _ hq hp

/-- `FEED` is defined at every cursor below 8. -/
theorem feed_total (P : Params) (bs : List Byte) (hq : q.cur ≠ 8) : ∃ q' n o, feed P q bs = some (q', n, o) := by
  induction bs generalizing q with
  | nil => exact ⟨_, _, _, rfl⟩
  | cons b bs ih =>
    obtain ⟨q1, o1, hp⟩ := parseByte_total P b hq
    by_cases ho : o1 = .noResultYet
    · subst ho
      obtain ⟨q2, m, o2, hf⟩ := ih (parseByte_cursor hp)
      exact ⟨q2, m + 1, o2, by rw [feed_cons_none hp, hf]; rfl⟩
    · exact ⟨q1, 1, o1, feed_cons_result hp ho⟩

end Sys2Proof.Machine
end

