-- ==== Sys2Proof/Laws/State.lean ====
section
/-! SUPPORT. One lemma per field of State for each named update, so that no later proof unfolds one. -/

namespace Sys2Proof.Machine

variable (s : State)

@[simp] theorem giveBack_parser (v : Returned) : (giveBack v s).parser = s.parser := rfl
@[simp] theorem giveBack_txb (v : Returned) : (giveBack v s).txb = s.txb := rfl
@[simp] theorem giveBack_txn (v : Returned) : (giveBack v s).txn = s.txn := rfl
@[simp] theorem giveBack_rxb (v : Returned) : (giveBack v s).rxb = s.rxb := rfl
@[simp] theorem giveBack_got (v : Returned) : (giveBack v s).got = s.got := rfl
@[simp] theorem giveBack_need (v : Returned) : (giveBack v s).need = s.need := rfl
@[simp] theorem giveBack_ph (v : Returned) : (giveBack v s).ph = s.ph := rfl
@[simp] theorem giveBack_opr (v : Returned) : (giveBack v s).opr = s.opr := rfl
@[simp] theorem giveBack_exp (v : Returned) : (giveBack v s).exp = s.exp := rfl
@[simp] theorem giveBack_res (v : Returned) : (giveBack v s).res = s.res := rfl
@[simp] theorem giveBack_slave (v : Returned) : (giveBack v s).slave = s.slave := rfl
@[simp] theorem giveBack_par (v : Returned) : (giveBack v s).par = s.par := rfl
@[simp] theorem giveBack_inputs (v : Returned) : (giveBack v s).inputs = s.inputs := rfl
@[simp] theorem giveBack_ret (v : Returned) : (giveBack v s).ret = v := rfl
@[simp] theorem giveBack_fresh (v : Returned) : (giveBack v s).fresh = s.fresh := rfl

@[simp] theorem goTo_parser (p : Phase) : (goTo p s).parser = s.parser := rfl
@[simp] theorem goTo_txb (p : Phase) : (goTo p s).txb = s.txb := rfl
@[simp] theorem goTo_txn (p : Phase) : (goTo p s).txn = s.txn := rfl
@[simp] theorem goTo_rxb (p : Phase) : (goTo p s).rxb = s.rxb := rfl
@[simp] theorem goTo_got (p : Phase) : (goTo p s).got = s.got := rfl
@[simp] theorem goTo_need (p : Phase) : (goTo p s).need = s.need := rfl
@[simp] theorem goTo_ph (p : Phase) : (goTo p s).ph = p := rfl
@[simp] theorem goTo_opr (p : Phase) : (goTo p s).opr = s.opr := rfl
@[simp] theorem goTo_exp (p : Phase) : (goTo p s).exp = s.exp := rfl
@[simp] theorem goTo_res (p : Phase) : (goTo p s).res = s.res := rfl
@[simp] theorem goTo_slave (p : Phase) : (goTo p s).slave = s.slave := rfl
@[simp] theorem goTo_par (p : Phase) : (goTo p s).par = s.par := rfl
@[simp] theorem goTo_inputs (p : Phase) : (goTo p s).inputs = s.inputs := rfl
@[simp] theorem goTo_ret (p : Phase) : (goTo p s).ret = s.ret := rfl
@[simp] theorem goTo_fresh (p : Phase) : (goTo p s).fresh = s.fresh := rfl

@[simp] theorem withParser_parser (q : Parser) : (withParser q s).parser = q := rfl
@[simp] theorem withParser_txb (q : Parser) : (withParser q s).txb = s.txb := rfl
@[simp] theorem withParser_txn (q : Parser) : (withParser q s).txn = s.txn := rfl
@[simp] theorem withParser_rxb (q : Parser) : (withParser q s).rxb = s.rxb := rfl
@[simp] theorem withParser_got (q : Parser) : (withParser q s).got = s.got := rfl
@[simp] theorem withParser_need (q : Parser) : (withParser q s).need = s.need := rfl
@[simp] theorem withParser_ph (q : Parser) : (withParser q s).ph = s.ph := rfl
@[simp] theorem withParser_opr (q : Parser) : (withParser q s).opr = s.opr := rfl
@[simp] theorem withParser_exp (q : Parser) : (withParser q s).exp = s.exp := rfl
@[simp] theorem withParser_res (q : Parser) : (withParser q s).res = s.res := rfl
@[simp] theorem withParser_slave (q : Parser) : (withParser q s).slave = s.slave := rfl
@[simp] theorem withParser_par (q : Parser) : (withParser q s).par = s.par := rfl
@[simp] theorem withParser_inputs (q : Parser) : (withParser q s).inputs = s.inputs := rfl
@[simp] theorem withParser_ret (q : Parser) : (withParser q s).ret = s.ret := rfl
@[simp] theorem withParser_fresh (q : Parser) : (withParser q s).fresh = s.fresh := rfl

@[simp] theorem withSlave_parser (a : BitVec 2) : (withSlave a s).parser = s.parser := rfl
@[simp] theorem withSlave_txb (a : BitVec 2) : (withSlave a s).txb = s.txb := rfl
@[simp] theorem withSlave_txn (a : BitVec 2) : (withSlave a s).txn = s.txn := rfl
@[simp] theorem withSlave_rxb (a : BitVec 2) : (withSlave a s).rxb = s.rxb := rfl
@[simp] theorem withSlave_got (a : BitVec 2) : (withSlave a s).got = s.got := rfl
@[simp] theorem withSlave_need (a : BitVec 2) : (withSlave a s).need = s.need := rfl
@[simp] theorem withSlave_ph (a : BitVec 2) : (withSlave a s).ph = s.ph := rfl
@[simp] theorem withSlave_opr (a : BitVec 2) : (withSlave a s).opr = s.opr := rfl
@[simp] theorem withSlave_exp (a : BitVec 2) : (withSlave a s).exp = s.exp := rfl
@[simp] theorem withSlave_res (a : BitVec 2) : (withSlave a s).res = s.res := rfl
@[simp] theorem withSlave_slave (a : BitVec 2) : (withSlave a s).slave = a := rfl
@[simp] theorem withSlave_par (a : BitVec 2) : (withSlave a s).par = s.par := rfl
@[simp] theorem withSlave_inputs (a : BitVec 2) : (withSlave a s).inputs = s.inputs := rfl
@[simp] theorem withSlave_ret (a : BitVec 2) : (withSlave a s).ret = s.ret := rfl
@[simp] theorem withSlave_fresh (a : BitVec 2) : (withSlave a s).fresh = s.fresh := rfl

@[simp] theorem dropTxn_parser : (dropTxn s).parser = s.parser := rfl
@[simp] theorem dropTxn_txb : (dropTxn s).txb = s.txb := rfl
@[simp] theorem dropTxn_txn : (dropTxn s).txn = s.txn := rfl
@[simp] theorem dropTxn_rxb : (dropTxn s).rxb = s.rxb := rfl
@[simp] theorem dropTxn_got : (dropTxn s).got = s.got := rfl
@[simp] theorem dropTxn_need : (dropTxn s).need = s.need := rfl
@[simp] theorem dropTxn_ph : (dropTxn s).ph = .idle := rfl
@[simp] theorem dropTxn_opr : (dropTxn s).opr = s.opr := rfl
@[simp] theorem dropTxn_exp : (dropTxn s).exp = s.exp := rfl
@[simp] theorem dropTxn_res : (dropTxn s).res = none := rfl
@[simp] theorem dropTxn_slave : (dropTxn s).slave = s.slave := rfl
@[simp] theorem dropTxn_par : (dropTxn s).par = s.par := rfl
@[simp] theorem dropTxn_inputs : (dropTxn s).inputs = s.inputs := rfl
@[simp] theorem dropTxn_ret : (dropTxn s).ret = s.ret := rfl
@[simp] theorem dropTxn_fresh : (dropTxn s).fresh = s.fresh := rfl

@[simp] theorem finish_parser (r : TxnResult) : (finish r s).parser = s.parser := rfl
@[simp] theorem finish_txb (r : TxnResult) : (finish r s).txb = s.txb := rfl
@[simp] theorem finish_txn (r : TxnResult) : (finish r s).txn = s.txn := rfl
@[simp] theorem finish_rxb (r : TxnResult) : (finish r s).rxb = s.rxb := rfl
@[simp] theorem finish_got (r : TxnResult) : (finish r s).got = s.got := rfl
@[simp] theorem finish_need (r : TxnResult) : (finish r s).need = s.need := rfl
@[simp] theorem finish_ph (r : TxnResult) : (finish r s).ph = .idle := rfl
@[simp] theorem finish_opr (r : TxnResult) : (finish r s).opr = s.opr := rfl
@[simp] theorem finish_exp (r : TxnResult) : (finish r s).exp = s.exp := rfl
@[simp] theorem finish_res (r : TxnResult) : (finish r s).res = some r := rfl
@[simp] theorem finish_slave (r : TxnResult) : (finish r s).slave = s.slave := rfl
@[simp] theorem finish_par (r : TxnResult) : (finish r s).par = s.par := rfl
@[simp] theorem finish_inputs (r : TxnResult) : (finish r s).inputs = s.inputs := rfl
@[simp] theorem finish_ret (r : TxnResult) : (finish r s).ret = s.ret := rfl
@[simp] theorem finish_fresh (r : TxnResult) : (finish r s).fresh = s.fresh := rfl

@[simp] theorem collect_parser (bs : List Byte) : (collect bs s).parser = s.parser := rfl
@[simp] theorem collect_txb (bs : List Byte) : (collect bs s).txb = s.txb := rfl
@[simp] theorem collect_txn (bs : List Byte) : (collect bs s).txn = s.txn := rfl
@[simp] theorem collect_rxb (bs : List Byte) : (collect bs s).rxb = s.rxb.store s.got.val bs := rfl
@[simp] theorem collect_got (bs : List Byte) : (collect bs s).got = Fin.ofNat 9 (s.got.val + bs.length) := rfl
@[simp] theorem collect_need (bs : List Byte) : (collect bs s).need = s.need := rfl
@[simp] theorem collect_ph (bs : List Byte) : (collect bs s).ph = s.ph := rfl
@[simp] theorem collect_opr (bs : List Byte) : (collect bs s).opr = s.opr := rfl
@[simp] theorem collect_exp (bs : List Byte) : (collect bs s).exp = s.exp := rfl
@[simp] theorem collect_res (bs : List Byte) : (collect bs s).res = s.res := rfl
@[simp] theorem collect_slave (bs : List Byte) : (collect bs s).slave = s.slave := rfl
@[simp] theorem collect_par (bs : List Byte) : (collect bs s).par = s.par := rfl
@[simp] theorem collect_inputs (bs : List Byte) : (collect bs s).inputs = s.inputs := rfl
@[simp] theorem collect_ret (bs : List Byte) : (collect bs s).ret = s.ret := rfl
@[simp] theorem collect_fresh (bs : List Byte) : (collect bs s).fresh = s.fresh := rfl

@[simp] theorem beginReadExact_parser (n : Fin 9) : (beginReadExact n s).parser = s.parser := rfl
@[simp] theorem beginReadExact_txb (n : Fin 9) : (beginReadExact n s).txb = s.txb := rfl
@[simp] theorem beginReadExact_txn (n : Fin 9) : (beginReadExact n s).txn = s.txn := rfl
@[simp] theorem beginReadExact_rxb (n : Fin 9) : (beginReadExact n s).rxb = s.rxb := rfl
@[simp] theorem beginReadExact_got (n : Fin 9) : (beginReadExact n s).got = 0 := rfl
@[simp] theorem beginReadExact_need (n : Fin 9) : (beginReadExact n s).need = n := rfl
@[simp] theorem beginReadExact_ph (n : Fin 9) : (beginReadExact n s).ph = s.ph := rfl
@[simp] theorem beginReadExact_opr (n : Fin 9) : (beginReadExact n s).opr = s.opr := rfl
@[simp] theorem beginReadExact_exp (n : Fin 9) : (beginReadExact n s).exp = s.exp := rfl
@[simp] theorem beginReadExact_res (n : Fin 9) : (beginReadExact n s).res = s.res := rfl
@[simp] theorem beginReadExact_slave (n : Fin 9) : (beginReadExact n s).slave = s.slave := rfl
@[simp] theorem beginReadExact_par (n : Fin 9) : (beginReadExact n s).par = s.par := rfl
@[simp] theorem beginReadExact_inputs (n : Fin 9) : (beginReadExact n s).inputs = s.inputs := rfl
@[simp] theorem beginReadExact_ret (n : Fin 9) : (beginReadExact n s).ret = s.ret := rfl
@[simp] theorem beginReadExact_fresh (n : Fin 9) : (beginReadExact n s).fresh = s.fresh := rfl

@[simp] theorem takeEvent_parser (rest : List Event) : (takeEvent rest s).parser = s.parser := rfl
@[simp] theorem takeEvent_txb (rest : List Event) : (takeEvent rest s).txb = s.txb := rfl
@[simp] theorem takeEvent_txn (rest : List Event) : (takeEvent rest s).txn = s.txn := rfl
@[simp] theorem takeEvent_rxb (rest : List Event) : (takeEvent rest s).rxb = s.rxb := rfl
@[simp] theorem takeEvent_got (rest : List Event) : (takeEvent rest s).got = s.got := rfl
@[simp] theorem takeEvent_need (rest : List Event) : (takeEvent rest s).need = s.need := rfl
@[simp] theorem takeEvent_ph (rest : List Event) : (takeEvent rest s).ph = s.ph := rfl
@[simp] theorem takeEvent_opr (rest : List Event) : (takeEvent rest s).opr = s.opr := rfl
@[simp] theorem takeEvent_exp (rest : List Event) : (takeEvent rest s).exp = s.exp := rfl
@[simp] theorem takeEvent_res (rest : List Event) : (takeEvent rest s).res = s.res := rfl
@[simp] theorem takeEvent_slave (rest : List Event) : (takeEvent rest s).slave = s.slave := rfl
@[simp] theorem takeEvent_par (rest : List Event) : (takeEvent rest s).par = s.par := rfl
@[simp] theorem takeEvent_inputs (rest : List Event) : (takeEvent rest s).inputs = rest := rfl
@[simp] theorem takeEvent_ret (rest : List Event) : (takeEvent rest s).ret = .nothing := rfl
@[simp] theorem takeEvent_fresh (rest : List Event) : (takeEvent rest s).fresh = s.fresh := rfl

@[simp] theorem acceptCommand_parser (op : Op) (reg : Byte) (data : Word) : (acceptCommand op reg data s).parser = s.parser.restart := rfl
@[simp] theorem acceptCommand_txb (op : Op) (reg : Byte) (data : Word) : (acceptCommand op reg data s).txb = s.txb.store 0 (requestOf s.par s.slave op reg data) := rfl
@[simp] theorem acceptCommand_txn (op : Op) (reg : Byte) (data : Word) : (acceptCommand op reg data s).txn = requestLength op := rfl
@[simp] theorem acceptCommand_rxb (op : Op) (reg : Byte) (data : Word) : (acceptCommand op reg data s).rxb = s.rxb := rfl
@[simp] theorem acceptCommand_got (op : Op) (reg : Byte) (data : Word) : (acceptCommand op reg data s).got = s.got := rfl
@[simp] theorem acceptCommand_need (op : Op) (reg : Byte) (data : Word) : (acceptCommand op reg data s).need = s.need := rfl
@[simp] theorem acceptCommand_ph (op : Op) (reg : Byte) (data : Word) : (acceptCommand op reg data s).ph = .wr := rfl
@[simp] theorem acceptCommand_opr (op : Op) (reg : Byte) (data : Word) : (acceptCommand op reg data s).opr = op := rfl
@[simp] theorem acceptCommand_exp (op : Op) (reg : Byte) (data : Word) : (acceptCommand op reg data s).exp = maskReg reg := rfl
@[simp] theorem acceptCommand_res (op : Op) (reg : Byte) (data : Word) : (acceptCommand op reg data s).res = none := rfl
@[simp] theorem acceptCommand_slave (op : Op) (reg : Byte) (data : Word) : (acceptCommand op reg data s).slave = s.slave := rfl
@[simp] theorem acceptCommand_par (op : Op) (reg : Byte) (data : Word) : (acceptCommand op reg data s).par = s.par := rfl
@[simp] theorem acceptCommand_inputs (op : Op) (reg : Byte) (data : Word) : (acceptCommand op reg data s).inputs = s.inputs := rfl
@[simp] theorem acceptCommand_ret (op : Op) (reg : Byte) (data : Word) : (acceptCommand op reg data s).ret = s.ret := rfl
@[simp] theorem acceptCommand_fresh (op : Op) (reg : Byte) (data : Word) : (acceptCommand op reg data s).fresh = s.fresh := rfl

@[simp] theorem blockReset_got : (blockReset s).got = 0 := rfl
@[simp] theorem blockReset_need : (blockReset s).need = 0 := rfl
@[simp] theorem blockReset_ph : (blockReset s).ph = .idle := rfl
@[simp] theorem blockReset_res : (blockReset s).res = none := rfl
@[simp] theorem blockReset_slave : (blockReset s).slave = s.slave := rfl
@[simp] theorem blockReset_par : (blockReset s).par = s.par := rfl
@[simp] theorem blockReset_inputs : (blockReset s).inputs = s.inputs := rfl
@[simp] theorem blockReset_ret : (blockReset s).ret = s.ret := rfl
@[simp] theorem blockReset_cur : (blockReset s).parser.cur = 0 := rfl

@[simp] theorem restart_cur (q : Parser) : q.restart.cur = 0 := rfl
@[simp] theorem restart_acc (q : Parser) : q.restart.acc = q.acc := rfl

/-- The room depends on the counts alone. -/
@[simp] theorem room_takeEvent (rest : List Event) : room (takeEvent rest s) = room s := rfl

end Sys2Proof.Machine
end

