-- ==== Sys2Proof/Laws/Engine.lean ====
section
/-! SUPPORT. What the engine's operations and a whole step can do, once: later proofs cite these cases (42_transaction.md
R204). -/

namespace Sys2Proof.Machine

variable {s t : State} {a : RxAnswer} {bs : List Byte}

/-- Within the room offered the count does not wrap (R137 (e)). -/
theorem collect_got_val (h : bs.length ≤ room s) (hb : bs ≠ []) : (collect bs s).got.val = s.got.val + bs.length := by
  have := List.length_pos_iff.2 hb
  have := s.need.isLt
  simp only [room] at h
  simp only [collect_got, Fin.val_ofNat]
  omega

/-- `zext_8(SLAVE_ADDR)` is the two bits under six zeros. -/
theorem zextSlave_eq (a : BitVec 2) : zextSlave a = (0#6 ++ a : BitVec 8) := by revert a; decide

/-- Everything an answer to `RxRead` can lead to (R190, R192, R196). -/
theorem readExact_cases (h : execReadExact a s = .next t) :
    (s.ph = .echo ∨ s.ph = .reply) ∧
    ((∃ e, a = .err e ∧ t = finish (.err (.transportFailure e)) s) ∨
     (a = .ok [] ∧ t = finish (.err .noResponse) s) ∨
     ∃ bs, a = .ok bs ∧ bs ≠ [] ∧ bs.length ≤ room s ∧
      ((s.got.val + bs.length < s.need.val ∧ t = collect bs s) ∨
       (s.got.val + bs.length = s.need.val ∧ s.ph = .echo ∧ t = echoComplete (collect bs s)) ∨
       (s.got.val + bs.length = s.need.val ∧ s.ph = .reply ∧
        ∃ q n o, feed s.par s.parser (s.rxb.store s.got.val bs).toList = some (q, n, o) ∧
          t = finish (replyResult s.exp o) (withParser q (collect bs s))))) := by
  have key : ∀ f, readAnswer f a s = .next t →
      (∃ e, a = .err e ∧ t = finish (.err (.transportFailure e)) s) ∨
      (a = .ok [] ∧ t = finish (.err .noResponse) s) ∨
      ∃ bs, a = .ok bs ∧ bs ≠ [] ∧ bs.length ≤ room s ∧
       ((s.got.val + bs.length < s.need.val ∧ t = collect bs s) ∨
        (s.got.val + bs.length = s.need.val ∧ f (collect bs s) = .next t)) := by
    intro f hf
    rcases a with (_ | ⟨b, bs⟩) | e
    · simp only [readAnswer, Host.Outcome.next.injEq] at hf
      exact .inr (.inl ⟨rfl, hf.symm⟩)
    · simp only [readAnswer] at hf
      split_ifs at hf with h1 h2
      · have hv := collect_got_val (s := s) h1 (by simp)
        rw [Fin.lt_def, hv, collect_need] at h2
        rw [Host.Outcome.next.injEq] at hf
        exact .inr (.inr ⟨b :: bs, rfl, by simp, h1, .inl ⟨h2, hf.symm⟩⟩)
      · have hv := collect_got_val (s := s) h1 (by simp)
        rw [Fin.lt_def, hv, collect_need] at h2
        have h1' := h1
        simp only [room, List.length_cons] at h1' h2
        exact .inr (.inr ⟨b :: bs, rfl, by simp, h1, .inr ⟨by simp only [List.length_cons]; omega, hf⟩⟩)
    · simp only [readAnswer, Host.Outcome.next.injEq] at hf
      exact .inl ⟨e, rfl, hf.symm⟩
  cases hp : s.ph <;> simp only [execReadExact, hp, reduceCtorEq] at h
  · refine ⟨.inl rfl, ?_⟩
    rcases key _ h with h | h | ⟨bs, ha, hb, hr, h | ⟨hl, h⟩⟩
    · exact .inl h
    · exact .inr (.inl h)
    · exact .inr (.inr ⟨bs, ha, hb, hr, .inl h⟩)
    · rw [Host.Outcome.next.injEq] at h
      exact .inr (.inr ⟨bs, ha, hb, hr, .inr (.inl ⟨hl, rfl, h.symm⟩)⟩)
  · refine ⟨.inr rfl, ?_⟩
    rcases key _ h with h | h | ⟨bs, ha, hb, hr, h | ⟨hl, h⟩⟩
    · exact .inl h
    · exact .inr (.inl h)
    · exact .inr (.inr ⟨bs, ha, hb, hr, .inl h⟩)
    · simp only [replyComplete, collect_par, collect_parser, collect_rxb, collect_exp] at h
      rcases hf : feed s.par s.parser (s.rxb.store s.got.val bs).toList with _ | ⟨q, n, o⟩
      · simp [hf] at h
      · simp only [hf, Host.Outcome.next.injEq] at h
        exact .inr (.inr ⟨bs, ha, hb, hr, .inr (.inr ⟨hl, rfl, q, n, o, hf, h.symm⟩)⟩)

/-- A storing answer that does not complete the count (R190). -/
theorem readExact_more (hp : s.ph = .echo ∨ s.ph = .reply) (hb : bs ≠ []) (hl : s.got.val + bs.length < s.need.val) :
    execReadExact (.ok bs) s = .next (collect bs s) := by
  obtain ⟨b, bs, rfl⟩ := List.exists_cons_of_ne_nil hb
  have hr : (b :: bs).length ≤ room s := by simp only [room]; omega
  have hg : (collect (b :: bs) s).got < (collect (b :: bs) s).need := by
    rw [Fin.lt_def, collect_got_val hr hb]; exact hl
  rcases hp with hp | hp <;> simp only [execReadExact, hp, readAnswer, if_pos hr, if_pos hg]

/-- The storing answer that completes the count in `ECHO` (R192). -/
theorem readExact_echo (hp : s.ph = .echo) (hb : bs ≠ []) (hl : s.got.val + bs.length = s.need.val) :
    execReadExact (.ok bs) s = .next (echoComplete (collect bs s)) := by
  obtain ⟨b, bs, rfl⟩ := List.exists_cons_of_ne_nil hb
  have hr : (b :: bs).length ≤ room s := by simp only [room]; omega
  have hg : ¬ (collect (b :: bs) s).got < (collect (b :: bs) s).need := by
    rw [Fin.lt_def, collect_got_val hr hb, collect_need]; omega
  simp only [execReadExact, hp, readAnswer, if_pos hr, if_neg hg]

/-- The storing answer that completes the count in `REPLY` (R196). -/
theorem readExact_reply (hp : s.ph = .reply) (hb : bs ≠ []) (hl : s.got.val + bs.length = s.need.val) :
    execReadExact (.ok bs) s = replyComplete (collect bs s) := by
  obtain ⟨b, bs, rfl⟩ := List.exists_cons_of_ne_nil hb
  have hr : (b :: bs).length ≤ room s := by simp only [room]; omega
  have hg : ¬ (collect (b :: bs) s).got < (collect (b :: bs) s).need := by
    rw [Fin.lt_def, collect_got_val hr hb, collect_need]; omega
  simp only [execReadExact, hp, readAnswer, if_pos hr, if_neg hg]

/-- Everything an operation can do when it leads to a next state: the codec hands a value back, the parser's port changes
the Parser State, or the engine moves as R204 says. -/
theorem exec_cases {i : Instr} (h : exec i s = .next t) :
    (handsBackOnly i = true ∧ ∃ v, t = giveBack v s) ∨
    (s.ph = .idle ∧ i = .parserReset ∧ t = withParser s.parser.restart s) ∨
    (s.ph = .idle ∧ ∃ b q o, i = .parseByte b ∧ parseByte s.par b s.parser = some (q, o) ∧
      t = giveBack (.outcome o) (withParser q s)) ∨
    (s.ph = .idle ∧ ∃ bs q n o, i = .feed bs ∧ feed s.par s.parser bs = some (q, n, o) ∧
      t = giveBack (.fed n o) (withParser q s)) ∨
    (s.ph = .idle ∧ ∃ r d, i = .readTxn r d ∧ t = acceptCommand .read r d s) ∨
    (s.ph = .idle ∧ ∃ r d, i = .writeTxn r d ∧ t = acceptCommand .write r d s) ∨
    (s.ph = .wr ∧ i = .writeAll .ok ∧ t = goTo .fl s) ∨
    (s.ph = .wr ∧ ∃ e, i = .writeAll (.err e) ∧ t = finish (.err (.transportFailure e)) s) ∨
    (s.ph = .fl ∧ i = .flush .ok ∧ t = goTo .echo (beginReadExact s.txn s)) ∨
    (s.ph = .fl ∧ ∃ e, i = .flush (.err e) ∧ t = finish (.err (.transportFailure e)) s) ∨
    (∃ a, i = .readExact a ∧ execReadExact a s = .next t) ∨
    (s.ph ≠ .idle ∧ i = .cancel ∧ t = dropTxn s) := by
  cases i <;> simp only [exec] at h
  case reqRead => simp only [execReqRead, Host.Outcome.next.injEq] at h; exact .inl ⟨rfl, _, h.symm⟩
  case reqWrite => simp only [execReqWrite, Host.Outcome.next.injEq] at h; exact .inl ⟨rfl, _, h.symm⟩
  case respRead => simp only [execRespRead, Host.Outcome.next.injEq] at h; exact .inl ⟨rfl, _, h.symm⟩
  case encodeRead => simp only [execEncodeRead, Host.Outcome.next.injEq] at h; exact .inl ⟨rfl, _, h.symm⟩
  case encodeWrite => simp only [execEncodeWrite, Host.Outcome.next.injEq] at h; exact .inl ⟨rfl, _, h.symm⟩
  case decodeResp => simp only [execDecodeResp, Host.Outcome.next.injEq] at h; exact .inl ⟨rfl, _, h.symm⟩
  case decodeRespSlice => simp only [execDecodeRespSlice, Host.Outcome.next.injEq] at h; exact .inl ⟨rfl, _, h.symm⟩
  case reqwFields => simp only [execReqwFields, Host.Outcome.next.injEq] at h; exact .inl ⟨rfl, _, h.symm⟩
  case classifyAddr => simp only [execClassifyAddr, Host.Outcome.next.injEq] at h; exact .inl ⟨rfl, _, h.symm⟩
  case readTxn r d =>
    cases hp : s.ph <;> simp only [execReadTxn, command, hp, reduceCtorEq, Host.Outcome.next.injEq] at h
    exact .inr (.inr (.inr (.inr (.inl ⟨rfl, r, d, rfl, h.symm⟩))))
  case writeTxn r d =>
    cases hp : s.ph <;> simp only [execWriteTxn, command, hp, reduceCtorEq, Host.Outcome.next.injEq] at h
    exact .inr (.inr (.inr (.inr (.inr (.inl ⟨rfl, r, d, rfl, h.symm⟩)))))
  case parserReset =>
    cases hp : s.ph <;> simp only [execParserReset, atParserPort, hp, reduceCtorEq, Host.Outcome.next.injEq] at h
    exact .inr (.inl ⟨rfl, rfl, h.symm⟩)
  case parseByte b =>
    cases hp : s.ph <;> simp only [execParseByte, atParserPort, hp, reduceCtorEq] at h
    rcases hq : parseByte s.par b s.parser with _ | ⟨q, o⟩ <;> simp only [hq, reduceCtorEq, Host.Outcome.next.injEq] at h
    exact .inr (.inr (.inl ⟨rfl, b, q, o, rfl, hq, h.symm⟩))
  case feed bs =>
    cases hp : s.ph <;> simp only [execFeed, atParserPort, hp, reduceCtorEq] at h
    rcases hq : feed s.par s.parser bs with _ | ⟨q, n, o⟩ <;> simp only [hq, reduceCtorEq, Host.Outcome.next.injEq] at h
    exact .inr (.inr (.inr (.inl ⟨rfl, bs, q, n, o, rfl, hq, h.symm⟩)))
  case writeAll a =>
    cases hp : s.ph <;> cases a <;> simp only [execWriteAll, hp, reduceCtorEq, Host.Outcome.next.injEq] at h <;>
      simp [h.symm]
  case flush a =>
    cases hp : s.ph <;> cases a <;> simp only [execFlush, hp, reduceCtorEq, Host.Outcome.next.injEq] at h <;>
      simp [h.symm]
  case readExact a => exact .inr (.inr (.inr (.inr (.inr (.inr (.inr (.inr (.inr (.inr (.inl ⟨a, rfl, h⟩))))))))))
  case cancel =>
    cases hp : s.ph <;> simp only [execCancel, hp, reduceCtorEq, Host.Outcome.next.injEq] at h <;> simp [h.symm]

/-- Everything a step can do when it leads to a next state: an operation is executed, the configuration input changes in
`IDLE`, or the block is reset. -/
theorem step_cases (h : step s = .next t) :
    ∃ e rest, s.inputs = e :: rest ∧
      ((∃ i, exec i (takeEvent rest s) = .next t ∧ (e = .op i ∨ ∃ bs, e = .word bs ∧ decode s.par bs = .ok i)) ∨
       (s.ph = .idle ∧ ∃ a, e = .cfg a ∧ t = withSlave a (takeEvent rest s)) ∨
       (e = .reset ∧ t = blockReset (takeEvent rest s))) := by
  simp only [step, takeAndRun] at h
  rcases hi : s.inputs with _ | ⟨e, rest⟩
  · simp [hi] at h
  · refine ⟨e, rest, rfl, ?_⟩
    simp only [hi] at h
    cases e with
    | word bs =>
      simp only [runEvent, takeEvent_par] at h
      rcases hd : decode s.par bs with d | i <;> simp only [hd, reduceCtorEq] at h
      exact .inl ⟨i, h, .inr ⟨bs, rfl, hd⟩⟩
    | op i => exact .inl ⟨i, h, .inl rfl⟩
    | cfg a =>
      cases hp : s.ph <;> simp only [runEvent, configure, takeEvent_ph, hp, reduceCtorEq, Host.Outcome.next.injEq] at h
      exact .inr (.inl ⟨rfl, a, rfl, h.symm⟩)
    | reset =>
      simp only [runEvent, Host.Outcome.next.injEq] at h
      exact .inr (.inr ⟨rfl, h.symm⟩)

/-- No step at all (Host.Core). -/
theorem run_zero (s : State) : Sys2Proof.core.run 0 s = .next s := rfl

/-- One step and then the others (Host.Core). -/
theorem run_succ {k : Nat} (h : step s = .next t) : Sys2Proof.core.run (k + 1) s = Sys2Proof.core.run k t := by
  have h' : Sys2Proof.core.step s = .next t := h
  simp only [Host.Core.run, h']

/-- Some steps and then others. -/
theorem run_add {j k : Nat} (h : Sys2Proof.core.run j s = .next t) :
    Sys2Proof.core.run (j + k) s = Sys2Proof.core.run k t := by
  induction j generalizing s with
  | zero => obtain rfl : s = t := Host.Outcome.next.inj h; rw [Nat.zero_add]
  | succ j ih =>
    rw [Nat.add_right_comm]
    simp only [Host.Core.run] at h ⊢
    rcases he : Sys2Proof.core.step s with u | f | f <;> simp only [he, reduceCtorEq] at h ⊢
    exact ih h

/-- An operation at the head of the queue is executed (R8). -/
theorem step_op {i : Instr} {rest : List Event} (h : s.inputs = .op i :: rest) :
    step s = exec i (takeEvent rest s) := by simp only [step, takeAndRun, h, runEvent]

end Sys2Proof.Machine
end

