-- ==== Sys2Proof/Laws/PerInstr.lean ====
section
/-! SUPPORT. A statement about every instruction as syntax: a row that has a bit pattern fills four, six or eight bytes,
and a row whose encoding is empty has none (30_encoding.md R90, R104, R107; 10_state.md R41). -/

namespace Sys2Proof.Laws

/-- How many bytes a row's bit pattern has: 32, 64 and 41 bits, the last in six bytes (R90, R41; log 12). -/
def EncodedLength.expected : Instr → Option Nat
  | .reqRead .. => some 4
  | .reqWrite .. | .respRead .. => some 8
  | .readTxn .. | .writeTxn .. => some 6
  | .encodeRead .. | .encodeWrite .. | .decodeResp _ | .decodeRespSlice _ | .reqwFields _ | .classifyAddr _
  | .parserReset | .parseByte _ | .feed _ | .writeAll _ | .flush _ | .readExact _ | .cancel => none

/-- The encoding has the row's number of bytes. -/
def EncodedLength.Statement (i : Instr) : Prop := (encode i).map List.length = EncodedLength.expected i

theorem EncodedLength.reqRead (sync slave : Byte) (reg : BitVec 7) (ck : Byte) :
    EncodedLength.Statement (.reqRead sync slave reg ck) := rfl

theorem EncodedLength.reqWrite (sync slave : Byte) (reg : BitVec 7) (data : Word) (ck : Byte) :
    EncodedLength.Statement (.reqWrite sync slave reg data ck) := rfl

theorem EncodedLength.respRead (sync source reg : Byte) (data : Word) (ck : Byte) :
    EncodedLength.Statement (.respRead sync source reg data ck) := rfl

theorem EncodedLength.readTxn (reg : Byte) (ignored : Word) : EncodedLength.Statement (.readTxn reg ignored) := rfl

theorem EncodedLength.writeTxn (reg : Byte) (data : Word) : EncodedLength.Statement (.writeTxn reg data) := rfl

theorem EncodedLength.encodeRead (slave reg : Byte) : EncodedLength.Statement (.encodeRead slave reg) := rfl

theorem EncodedLength.encodeWrite (slave reg : Byte) (data : Word) :
    EncodedLength.Statement (.encodeWrite slave reg data) := rfl

theorem EncodedLength.decodeResp (b : Bytes8) : EncodedLength.Statement (.decodeResp b) := rfl

theorem EncodedLength.decodeRespSlice (bs : List Byte) : EncodedLength.Statement (.decodeRespSlice bs) := rfl

theorem EncodedLength.reqwFields (b : Bytes8) : EncodedLength.Statement (.reqwFields b) := rfl

theorem EncodedLength.classifyAddr (raw : Byte) : EncodedLength.Statement (.classifyAddr raw) := rfl

theorem EncodedLength.parserReset : EncodedLength.Statement .parserReset := rfl

theorem EncodedLength.parseByte (b : Byte) : EncodedLength.Statement (.parseByte b) := rfl

theorem EncodedLength.feed (bs : List Byte) : EncodedLength.Statement (.feed bs) := rfl

theorem EncodedLength.writeAll (a : TxAnswer) : EncodedLength.Statement (.writeAll a) := rfl

theorem EncodedLength.flush (a : TxAnswer) : EncodedLength.Statement (.flush a) := rfl

theorem EncodedLength.readExact (a : RxAnswer) : EncodedLength.Statement (.readExact a) := rfl

theorem EncodedLength.cancel : EncodedLength.Statement .cancel := rfl

end Sys2Proof.Laws
end

