-- ==== Sys2Proof/Tests/Slice0.lean ====
section
/-! SUPPORT. Small tests, their expected values taken from spec/95_test_vectors.md (the vector is named beside each) or
worked out by hand from the layouts of 30_encoding.md; and the witnesses: concrete states and operands that meet the
hypotheses of the statements. -/

namespace Sys2Proof.Tests

/- One theorem after another: the tests evaluate in the kernel, and fifty of them waiting at once would each hold a
thread. -/
set_option Elab.async false

open Sys2Proof Sys2Proof.Machine

/-! ### What the tests look at -/

/-- What an event handed back. -/
def retOf : Result → Option Returned
  | .next s => some s.ret
  | .fault _ => none
  | .refused _ => none

/-- One part of the state an event led to. -/
def partOf {α : Type} (f : State → α) : Result → Option α
  | .next s => some (f s)
  | .fault _ => none
  | .refused _ => none

/-- The name an event was refused by. -/
def refusalOf : Result → Option Refusal
  | .next _ => none
  | .fault _ => none
  | .refused r => some r

/-- After reset, with the cursor at `c` and these bytes in the accumulator. -/
def atCursor (c : Fin 9) (acc : Bytes8) : State := { State.reset with parser := ⟨c, acc⟩ }

/-- The accumulator of the valid response `F` of the vectors, all eight bytes. -/
def accF : Bytes8 := ⟨0x05#8, 0xFF#8, 0x6F#8, 0x80#8, 0x00#8, 0x00#8, 0x00#8, 0xD0#8⟩

/-- The bytes of `F`. -/
def bytesF : List Byte := [0x05#8, 0xFF#8, 0x6F#8, 0x80#8, 0x00#8, 0x00#8, 0x00#8, 0xD0#8]

/-- `READ_TXN 0x6F` accepted after reset: phase `WR`. -/
def readWr : State := acceptCommand .read 0x6F#8 0#32 State.reset

/-- The same read in phase `FL`. -/
def readFl : State := goTo .fl readWr

/-- The same read in phase `ECHO`, nothing read yet. -/
def readEcho : State := goTo .echo (beginReadExact 4 readFl)

/-- The same read in phase `REPLY`, nothing read yet. -/
def readReply : State := goTo .reply (beginReadExact 8 readEcho)

/-- `WRITE_TXN 0x6F, 0` in phase `ECHO`. -/
def writeEcho : State := goTo .echo (beginReadExact 8 (acceptCommand .write 0x6F#8 0#32 State.reset))

/-! ### Well-formedness refuses each ill-formed term -/

theorem test_wf_reqRead :
    (Instr.reqRead 0x05#8 0x00#8 0x6F#7 0x84#8).wf Params.default = true ∧
    (Instr.reqRead 0x04#8 0x00#8 0x6F#7 0x84#8).wf Params.default = false ∧
    (Instr.reqRead 0x05#8 0x00#8 0x6F#7 0x85#8).wf Params.default = false := by decide +kernel

theorem test_wf_reqWrite :
    (Instr.reqWrite 0x05#8 0x01#8 0x10#7 0x00061F0A#32 0x72#8).wf Params.default = true ∧
    (Instr.reqWrite 0x04#8 0x01#8 0x10#7 0x00061F0A#32 0x72#8).wf Params.default = false ∧
    (Instr.reqWrite 0x05#8 0xFF#8 0x10#7 0x00061F0A#32
      (Params.default.ck (writeHead 0x05#8 0xFF#8 0x10#7 0x00061F0A#32))).wf Params.default = false ∧
    (Instr.reqWrite 0x05#8 0x01#8 0x10#7 0x00061F0A#32 0x73#8).wf Params.default = false := by decide +kernel

theorem test_wf_respRead :
    (Instr.respRead 0x05#8 0xFF#8 0x6F#8 0x80000000#32 0xD0#8).wf Params.default = true ∧
    (Instr.respRead 0x04#8 0xFF#8 0x6F#8 0x80000000#32 0xD0#8).wf Params.default = false ∧
    (Instr.respRead 0x05#8 0x7F#8 0x6F#8 0x80000000#32 0xD0#8).wf Params.default = false ∧
    (Instr.respRead 0x05#8 0xFF#8 0x6F#8 0x80000000#32 0xD1#8).wf Params.default = false := by decide +kernel

theorem test_wf_readExact :
    (Instr.readExact (.ok bytesF)).wf Params.default = true ∧
    (Instr.readExact (.ok (0x00#8 :: bytesF))).wf Params.default = false := by decide

/-! ### Decoding: words written out from the layouts of R91, R92, R93 and R41 -/

/-- Byte 0 0x05, byte 1 0x03, byte 2 the flag 0 over 0x6F, byte 3 0x69 (V-ENC-R5). -/
theorem test_decode_reqRead : decode Params.default [0b00000101#8, 0b00000011#8, 0b01101111#8, 0b01101001#8] =
    .ok (.reqRead 0x05#8 0x03#8 0x6F#7 0x69#8) := by rfl

/-- Byte 2 the flag 1 over 0x22, the data 0x0505FFFF most significant byte first (V-ENC-W7). -/
theorem test_decode_reqWrite : decode Params.default
    [0b00000101#8, 0b00000000#8, 0b10100010#8, 0b00000101#8, 0b00000101#8, 0b11111111#8, 0b11111111#8, 0b10011101#8] =
    .ok (.reqWrite 0x05#8 0x00#8 0x22#7 0x0505FFFF#32 0x9D#8) := by rfl

/-- The sentinel in byte 1; byte 2 is a whole byte, not masked (V-DEC-14). -/
theorem test_decode_respRead : decode Params.default
    [0b00000101#8, 0b11111111#8, 0b11101111#8, 0b00000000#8, 0b00000000#8, 0b00000000#8, 0b00000000#8, 0b10100100#8] =
    .ok (.respRead 0x05#8 0xFF#8 0xEF#8 0x00000000#32 0xA4#8) := by rfl

/-- The command word 0x00600000000 of `READ_TXN 0x06`. -/
theorem test_decode_readTxn : decode Params.default
    [0b00000000#8, 0b00000110#8, 0b00000000#8, 0b00000000#8, 0b00000000#8, 0b00000000#8] =
    .ok (.readTxn 0x06#8 0x00000000#32) := by rfl

/-- The command word 0x16C10000053 of `WRITE_TXN 0x6C, 0x10000053` (P5). -/
theorem test_decode_writeTxn : decode Params.default
    [0b00000001#8, 0b01101100#8, 0b00010000#8, 0b00000000#8, 0b00000000#8, 0b01010011#8] =
    .ok (.writeTxn 0x6C#8 0x10000053#32) := by rfl

/-- The refusals: no such length, a flag in four bytes, a bit above the command word. -/
theorem test_decode_refuses :
    decode Params.default [] = .error .badLength ∧
    decode Params.default [0x05#8, 0x00#8, 0x6F#8, 0x84#8, 0x00#8] = .error .badLength ∧
    decode Params.default [0x05#8, 0x00#8, 0xEF#8, 0x84#8] = .error .flagInReadRequest ∧
    decode Params.default [0x02#8, 0x6F#8, 0x00#8, 0x00#8, 0x00#8, 0x00#8] = .error .bitsAboveCommand :=
  ⟨rfl, rfl, rfl, rfl⟩

/-- The table's numbering: a row's word, its bit 0 the least significant bit of the last byte. -/
theorem test_decodeTableWord :
    decodeTableWord 32 0x05036F69 = some (.reqRead 0x05#8 0x03#8 0x6F#7 0x69#8) ∧
    decodeTableWord 48 0x16F00000000 = some (.writeTxn 0x6F#8 0x00000000#32) ∧
    decodeTableWord 48 0x26F00000000 = none := by decide +kernel

/-! ### One event each -/

/-- V-ENC-R2, V-ENC-R9. -/
theorem test_encodeRead :
    retOf (exec (.encodeRead 0x00#8 0xEF#8) State.reset) = some (.request [0x05#8, 0x00#8, 0x6F#8, 0x84#8]) ∧
    retOf (exec (.encodeRead 0xFF#8 0x00#8) State.reset) = some (.request [0x05#8, 0xFF#8, 0x00#8, 0x9F#8]) := by
  decide +kernel

/-- V-ENC-W2, V-ENC-W3. -/
theorem test_encodeWrite :
    retOf (exec (.encodeWrite 0x00#8 0xEF#8 0x00000000#32) State.reset) =
      some (.request [0x05#8, 0x00#8, 0xEF#8, 0x00#8, 0x00#8, 0x00#8, 0x00#8, 0x0B#8]) ∧
    retOf (exec (.encodeWrite 0x01#8 0x10#8 0x00061F0A#32) State.reset) =
      some (.request [0x05#8, 0x01#8, 0x90#8, 0x00#8, 0x06#8, 0x1F#8, 0x0A#8, 0x72#8]) := by decide +kernel

/-- V-ENC-R6 by its image with a wrong checksum, which is recomputed. -/
theorem test_reqRead : retOf (exec (.reqRead 0x00#8 0x02#8 0x06#7 0x00#8) State.reset) =
    some (.request [0x05#8, 0x02#8, 0x06#8, 0x34#8]) := by decide +kernel

/-- V-ENC-W4 by its image. -/
theorem test_reqWrite : retOf (exec (.reqWrite 0x05#8 0x02#8 0x7F#7 0xDEADBEEF#32 0x76#8) State.reset) =
    some (.request [0x05#8, 0x02#8, 0xFF#8, 0xDE#8, 0xAD#8, 0xBE#8, 0xEF#8, 0x76#8]) := by decide +kernel

/-- V-DEC-14, V-DEC-11 by their images. -/
theorem test_respRead :
    retOf (exec (.respRead 0x05#8 0xFF#8 0xEF#8 0x00000000#32 0xA4#8) State.reset) =
      some (.response (.ok ⟨0xEF#8, 0x00000000#32⟩)) ∧
    retOf (exec (.respRead 0x04#8 0xFF#8 0x6F#8 0x80000000#32 0xD1#8) State.reset) =
      some (.response (.err .invalidSync)) := by decide +kernel

/-- V-DEC-2, V-DEC-12. -/
theorem test_decodeResp :
    retOf (exec (.decodeResp ⟨0x05#8, 0xFF#8, 0x6F#8, 0xC0#8, 0xFF#8, 0xEE#8, 0x01#8, 0x97#8⟩) State.reset) =
      some (.response (.ok ⟨0x6F#8, 0xC0FFEE01#32⟩)) ∧
    retOf (exec (.decodeResp ⟨0x05#8, 0x00#8, 0x6F#8, 0x80#8, 0x00#8, 0x00#8, 0x00#8, 0xD1#8⟩) State.reset) =
      some (.response (.err .invalidSourceAddress)) := by decide +kernel

/-- V-SLICE-8, V-SLICE-11. -/
theorem test_decodeRespSlice :
    retOf (exec (.decodeRespSlice [0x04#8, 0x00#8, 0x00#8]) State.reset) = some (.response (.err .shortBuffer)) ∧
    retOf (exec (.decodeRespSlice
      [0x05#8, 0xFF#8, 0x6F#8, 0x80#8, 0x00#8, 0x00#8, 0x00#8, 0xD1#8, 0x05#8, 0xFF#8]) State.reset) =
      some (.response (.err .checksumMismatch)) := by decide +kernel

/-- V-REQW-3, V-REQW-5. -/
theorem test_reqwFields :
    retOf (exec (.reqwFields ⟨0x05#8, 0x02#8, 0xFF#8, 0xDE#8, 0xAD#8, 0xBE#8, 0xEF#8, 0x76#8⟩) State.reset) =
      some (.fields 0x02#8 0x7F#8 0xDEADBEEF#32) ∧
    retOf (exec (.reqwFields ⟨0x05#8, 0x03#8, 0x80#8, 0xFF#8, 0xFF#8, 0xFF#8, 0xFF#8, 0x00#8⟩) State.reset) =
      some (.fields 0x03#8 0x00#8 0xFFFFFFFF#32) := by decide +kernel

/-- V-CLS-3, V-CLS-6. -/
theorem test_classifyAddr :
    retOf (exec (.classifyAddr 0x00#8) State.reset) = some (.access (.ok ⟨true, true⟩)) ∧
    retOf (exec (.classifyAddr 0xEF#8) State.reset) = some (.access (.err (.unknownAddress 0xEF#8))) := by
  decide +kernel

/-- P2 step 6: the cursor is 0, the accumulator is kept. -/
theorem test_parserReset :
    partOf State.parser (exec .parserReset (atCursor 1 accF)) = some ⟨0, accF⟩ := by decide

/-- V-PAR-22: at cursor 1 a second sync byte is kept; at cursor 4 a sync byte is data. -/
theorem test_parseByte :
    partOf (fun s => s.parser.cur) (exec (.parseByte 0x05#8) (atCursor 1 accF)) = some 1 ∧
    partOf (fun s => s.parser.cur) (exec (.parseByte 0x05#8) (atCursor 4 accF)) = some 5 := by decide

/-- V-PAR-9, V-PAR-15. -/
theorem test_feed :
    retOf (exec (.feed ([0x05#8, 0x05#8] ++ bytesF)) State.reset) =
      some (.fed 10 (.decodedDatagram ⟨0x6F#8, 0x80000000#32⟩)) ∧
    retOf (exec (.feed ([0x05#8, 0xFF#8, 0x11#8] ++ bytesF)) State.reset) =
      some (.fed 8 (.decodeError .checksumMismatch)) := by decide +kernel

/-- V-TXN-16: bit 7 of the argument dropped in the request and in `EXP`. -/
theorem test_readTxn :
    partOf outstanding (exec (.readTxn 0xEF#8 0xFFFFFFFF#32) State.reset) =
      some (some (.txWrite [0x05#8, 0x00#8, 0x6F#8, 0x84#8])) ∧
    partOf State.exp (exec (.readTxn 0xEF#8 0xFFFFFFFF#32) State.reset) = some 0x6F#8 := by decide +kernel

/-- V-TXN-4, V-TXN-25. -/
theorem test_writeTxn :
    partOf outstanding (exec (.writeTxn 0x10#8 0x00061F0A#32) State.reset) =
      some (some (.txWrite [0x05#8, 0x00#8, 0x90#8, 0x00#8, 0x06#8, 0x1F#8, 0x0A#8, 0x9E#8])) ∧
    partOf (fun s => s.parser.cur) (exec (.writeTxn 0x6F#8 0#32) (atCursor 7 accF)) = some 0 := by decide +kernel

/-- V-TXN-5; P1 step 2. -/
theorem test_writeAll :
    partOf State.res (exec (.writeAll (.err ⟨1⟩)) readWr) = some (some (.err (.transportFailure ⟨1⟩))) ∧
    partOf State.ph (exec (.writeAll .ok) readWr) = some .fl := by decide +kernel

/-- P1 step 6; V-TXN-24. -/
theorem test_flush :
    partOf (fun s => (s.ph, s.got, s.need)) (exec (.flush .ok) readFl) = some (.echo, 0, 4) ∧
    refusalOf (exec (.flush .ok) readWr) = some .answerNotOutstanding := by decide +kernel

/-- V-TXN-14: a reply shifted by one byte; V-TXN-12: a reply for another register. -/
theorem test_readExact :
    partOf (fun s => (s.res, s.parser.cur))
        (exec (.readExact (.ok [0x00#8, 0x05#8, 0xFF#8, 0x6F#8, 0x80#8, 0x00#8, 0x00#8, 0x00#8])) readReply) =
      some (some (.err .noResponse), 7) ∧
    partOf resultWord
        (exec (.readExact (.ok [0x05#8, 0xFF#8, 0x06#8, 0x21#8, 0x00#8, 0x00#8, 0x40#8, 0x4F#8])) readReply) =
      some (some 0x76F0600000000#52) := by decide +kernel

/-- V-TXN-21, V-TXN-24. -/
theorem test_cancel :
    partOf (fun s => (s.res, s.ph, s.got, s.need, s.txb.toList.take 4)) (exec .cancel (collect [0x05#8, 0x00#8] readEcho)) =
      some (none, .idle, 2, 4, [0x05#8, 0x00#8, 0x6F#8, 0x84#8]) ∧
    refusalOf (exec .cancel State.reset) = some .nothingToCancel := by decide +kernel

/-- The first step after reset, on the command word of V-TXN-3. -/
theorem test_step_withFetchWord :
    partOf outstanding (step (State.reset.withFetchWord 48 0x16F00000000)) =
      some (some (.txWrite [0x05#8, 0x00#8, 0xEF#8, 0x00#8, 0x00#8, 0x00#8, 0x00#8, 0x0B#8])) := by decide +kernel

/-- The codes of R221, of R33 and of R34, and the command word of R41 (`WRITE_TXN 0x10, 0x00061F0A`). -/
theorem test_codes :
    [Error.transportFailure ⟨0⟩, .noResponse, .invalidSync, .invalidSourceAddress, .checksumMismatch, .shortBuffer,
      .addressMismatch 0#8 1#8, .unknownAddress 0#8].map Error.code = [1, 2, 3, 4, 5, 6, 7, 8] ∧
    [Phase.idle, .wr, .fl, .echo, .reply].map Phase.code = [0, 1, 2, 3, 4] ∧
    commandWord .write 0x10#8 0x00061F0A#32 = 0x11000061F0A#41 := by decide +kernel

/-! ### Witnesses: the hypotheses of the statements can be met -/

/-- The request of `READ_TXN 0x6F` is latched in every one of its phases. -/
theorem readWr_latched : RequestLatched readWr := by
  have h : readWr.txb.toList.take 4 = encodeRead readWr.par (zextSlave readWr.slave) readWr.exp := by decide +kernel
  exact ⟨by decide +kernel, by decide +kernel, h⟩

/-- `Inv` in a phase of that read: all but the phase's own counts. -/
theorem read_inv (s : State) (hp : s.parser = readWr.parser) (hr : s.res = none) (hb : s.txb = readWr.txb)
    (hn : s.txn = readWr.txn) (ho : s.opr = .read) (hx : s.exp = readWr.exp) (hs : s.slave = readWr.slave)
    (hP : s.par = readWr.par) (he : s.ph = .echo → s.need = s.txn ∧ s.got < s.need)
    (hd : s.ph = .reply → s.need = 8 ∧ s.got < 8) : s.Inv where
  parser := by rw [hp]; exact ⟨by decide +kernel, fun h => absurd (by decide +kernel) h, fun h => absurd (by decide +kernel) h⟩
  busy := fun _ => by
    refine ⟨hr, by rw [hp]; decide +kernel, ?_⟩
    have h := readWr_latched
    simp only [RequestLatched, hb, hn, ho, hx, hs, hP] at h ⊢
    exact h
  echo := he
  reply := fun h => ⟨ho, hd h⟩
  result := fun _ h => by simp [hr] at h

theorem readWr_inv : readWr.Inv := read_inv _ rfl rfl rfl rfl rfl rfl rfl rfl (fun h => nomatch h) (fun h => nomatch h)

theorem readFl_inv : readFl.Inv := read_inv _ rfl rfl rfl rfl rfl rfl rfl rfl (fun h => nomatch h) (fun h => nomatch h)

theorem readEcho_inv : readEcho.Inv :=
  read_inv _ rfl rfl rfl rfl rfl rfl rfl rfl (fun _ => ⟨rfl, by decide⟩) (fun h => nomatch h)

theorem readReply_inv : readReply.Inv :=
  read_inv _ rfl rfl rfl rfl rfl rfl rfl rfl (fun h => nomatch h) (fun _ => ⟨rfl, by decide⟩)

/-- An idle state with these values; the Parser State of `F` cut at the cursor. -/
theorem atCursor_inv (c : Fin 9) (h : c ≠ 8) : (atCursor c accF).Inv where
  parser := ⟨h, fun _ => rfl, fun _ _ => rfl⟩
  busy := fun h => absurd rfl h
  echo := fun h => nomatch h
  reply := fun h => nomatch h
  result := fun _ h => nomatch h

/-- An idle state with events presented. -/
def presented (es : List Event) : State := { State.reset with inputs := es }

theorem witness_StepRunsOperation : (presented [.op .parserReset]).inputs = .op .parserReset :: [] := rfl

theorem witness_StepRunsDecodedWord :
    (presented [.word [0x05#8, 0x00#8, 0x6F#8, 0x84#8]]).inputs = .word [0x05#8, 0x00#8, 0x6F#8, 0x84#8] :: [] ∧
    decode Params.default [0x05#8, 0x00#8, 0x6F#8, 0x84#8] = .ok (.reqRead 0x05#8 0x00#8 0x6F#7 0x84#8) ∧
    (presented [.word [0x05#8]]).inputs = .word [0x05#8] :: [] ∧
    decode Params.default [0x05#8] = .error .badLength ∧
    decode Params.default (tableBytes 48 0x06F00000000) = .ok (.readTxn 0x6F#8 0#32) := ⟨rfl, rfl, rfl, rfl, rfl⟩

theorem witness_ConfigOnlyInIdle :
    ((presented [.cfg 3#2]).inputs = .cfg 3#2 :: [] ∧ (presented [.cfg 3#2]).ph = .idle) ∧
    ({ readEcho with inputs := [.cfg 3#2] }.inputs = .cfg 3#2 :: [] ∧ { readEcho with inputs := [.cfg 3#2] }.ph ≠ .idle) :=
  ⟨⟨rfl, rfl⟩, rfl, by decide⟩

/-- V-RST-2: a reset while a reply is being read. -/
theorem witness_BlockResetRegisters :
    { collect [0x05#8, 0xFF#8, 0x6F#8] readReply with inputs := [.reset] }.inputs = .reset :: [] := rfl

theorem witness_NoStepOfItsOwn : ∃ t, step (presented [.op .parserReset]) = .next t := ⟨_, rfl⟩

/-- A read, a write for a slave that is not the sentinel, a response by its sentinel, and one told by its clear bit 7. -/
theorem witness_DecodeOfEncode :
    ((Instr.reqRead 0x05#8 0xFF#8 0x7F#7 0x00#8).told Params.default = true ∧
      encode (.reqRead 0x05#8 0xFF#8 0x7F#7 0x00#8) = some [0x05#8, 0xFF#8, 0x7F#8, 0x00#8]) ∧
    ((Instr.reqWrite 0x05#8 0xFE#8 0x00#7 0x01020304#32 0x00#8).told Params.default = true ∧
      encode (.reqWrite 0x05#8 0xFE#8 0x00#7 0x01020304#32 0x00#8) =
        some [0x05#8, 0xFE#8, 0x80#8, 0x01#8, 0x02#8, 0x03#8, 0x04#8, 0x00#8]) ∧
    ((Instr.respRead 0x05#8 0xFF#8 0x80#8 0x01020304#32 0x00#8).told Params.default = true ∧
      encode (.respRead 0x05#8 0xFF#8 0x80#8 0x01020304#32 0x00#8) =
        some [0x05#8, 0xFF#8, 0x80#8, 0x01#8, 0x02#8, 0x03#8, 0x04#8, 0x00#8]) ∧
    (Instr.respRead 0x05#8 0x00#8 0x7F#8 0#32 0x00#8).told Params.default = true ∧
    (Instr.writeTxn 0xFF#8 0#32).told Params.default = true := by decide +kernel

theorem witness_EncodeOfDecode :
    decode Params.default [0x00#8, 0xEF#8, 0x01#8, 0x02#8, 0x03#8, 0x04#8] = .ok (.readTxn 0xEF#8 0x01020304#32) ∧
    decode Params.default bytesF = .ok (.respRead 0x05#8 0xFF#8 0x6F#8 0x80000000#32 0xD0#8) := ⟨rfl, rfl⟩

theorem witness_GenuineImagesStand :
    ((Instr.reqRead 0x05#8 0x00#8 0x6F#7 0x84#8).wf State.reset.par = true ∧
      encode (.reqRead 0x05#8 0x00#8 0x6F#7 0x84#8) = some [0x05#8, 0x00#8, 0x6F#8, 0x84#8]) ∧
    ((Instr.reqWrite 0x05#8 0x01#8 0x10#7 0x00061F0A#32 0x72#8).wf State.reset.par = true ∧
      encode (.reqWrite 0x05#8 0x01#8 0x10#7 0x00061F0A#32 0x72#8) =
        some [0x05#8, 0x01#8, 0x90#8, 0x00#8, 0x06#8, 0x1F#8, 0x0A#8, 0x72#8]) ∧
    (Instr.respRead 0x05#8 0xFF#8 0x6F#8 0x80000000#32 0xD0#8).wf State.reset.par = true := by decide +kernel

theorem witness_AddressBitSevenDropped : (0x6F#8).setWidth 7 = (0xEF#8 : Byte).setWidth 7 := rfl

theorem witness_ResponseImagesDecode :
    encode (.respRead 0x05#8 0xFF#8 0x6F#8 0x80000000#32 0xD0#8) = some bytesF := rfl

theorem witness_SliceTakesFirstEight :
    (bytesF.take 7).length < 8 ∧ bytesF = accF.toList ++ [] ∧ bytesF ++ [0xAA#8, 0xBB#8] = accF.toList ++ [0xAA#8, 0xBB#8] := by
  decide

/-- The addresses at the edge of the known set: 0x72 is known, 0x73 is not. -/
theorem witness_ClassifyLooksUp :
    State.reset.par.addrTable 0x73#8 = none ∧ State.reset.par.addrTable 0x72#8 = some ⟨true, false⟩ ∧
    State.reset.par.tableOk = true ∧ 0x72 < (0x73#8).toNat := by decide +kernel

theorem witness_ChecksumSensitivity : State.reset.par.CkSingleBit ∧
    decodeResponse State.reset.par accF = .ok ⟨0x6F#8, 0x80000000#32⟩ ∧ 0 < 7 ∧ 6 < 7 ∧ 7 < 8 :=
  ⟨default_ckSingleBit _ rfl, by decide +kernel, by decide⟩

theorem witness_CodecTouchesNoRegister : handsBackOnly (.classifyAddr 0x6F#8) = true ∧
    handsBackOnly (.respRead 0#8 0#8 0#8 0#32 0#8) = true := ⟨rfl, rfl⟩

theorem witness_ParserResetWritesCursor : (atCursor 7 accF).ph = .idle := rfl

/-- One state and byte for each row of the table. -/
theorem witness_ParseByteTable :
    (State.reset.ph = .idle ∧ State.reset.parser.Inv State.reset.par ∧ State.reset.parser.cur = 0 ∧
      0x05#8 = State.reset.par.sync ∧ 0xFF#8 ≠ State.reset.par.sync) ∧
    ((atCursor 1 accF).ph = .idle ∧ (atCursor 1 accF).parser.Inv Params.default ∧ (atCursor 1 accF).parser.cur = 1 ∧
      0xFF#8 = (atCursor 1 accF).par.sentinel ∧ 0x05#8 ≠ (atCursor 1 accF).par.sentinel ∧
      0x05#8 = (atCursor 1 accF).par.sync ∧ 0x00#8 ≠ (atCursor 1 accF).par.sentinel ∧
      0x00#8 ≠ (atCursor 1 accF).par.sync) ∧
    ((atCursor 2 accF).parser.Inv Params.default ∧ 2 ≤ (atCursor 2 accF).parser.cur ∧ (atCursor 2 accF).parser.cur ≤ 6) ∧
    ((atCursor 6 accF).parser.Inv Params.default ∧ 2 ≤ (atCursor 6 accF).parser.cur ∧ (atCursor 6 accF).parser.cur ≤ 6) ∧
    ((atCursor 7 accF).parser.Inv Params.default ∧ (atCursor 7 accF).parser.cur = 7) :=
  ⟨⟨rfl, ⟨by decide, by decide, by decide⟩, rfl, rfl, by decide⟩,
   ⟨rfl, (atCursor_inv 1 (by decide)).parser, rfl, rfl, by decide, rfl, by decide, by decide⟩,
   ⟨(atCursor_inv 2 (by decide)).parser, by decide, by decide⟩,
   ⟨(atCursor_inv 6 (by decide)).parser, by decide, by decide⟩, (atCursor_inv 7 (by decide)).parser, rfl⟩

/-- A byte with no result, and no byte after it; and a byte with a result. -/
theorem witness_FeedIteratesParseByte : (atCursor 6 accF).ph = .idle ∧
    (∃ t u, exec (.parseByte 0x00#8) (atCursor 6 accF) = .next t ∧ t.ret = .outcome .noResultYet ∧
      exec (.feed []) t = .next u ∧ u.ret = .fed 0 .noResultYet) ∧
    ∃ t, exec (.parseByte 0xD0#8) (atCursor 7 accF) = .next t ∧
      t.ret = .outcome (.decodedDatagram ⟨0x6F#8, 0x80000000#32⟩) :=
  ⟨rfl, ⟨_, _, rfl, rfl, rfl, rfl⟩, _, rfl, by decide +kernel⟩

theorem witness_EighthByteIsTheChecksum : (atCursor 7 accF).ph = .idle ∧ (atCursor 7 accF).parser.Inv Params.default ∧
    (atCursor 7 accF).parser.cur = 7 := ⟨rfl, (atCursor_inv 7 (by decide)).parser, rfl⟩

theorem witness_CursorEightHasNoRule : (atCursor 8 accF).ph = .idle ∧ (atCursor 8 accF).parser.cur = 8 := ⟨rfl, rfl⟩

/-- The empty input at cursor 5 (V-PAR-10), and an input with a result. -/
theorem witness_FeedCountsBytes :
    (atCursor 5 accF).ph = .idle ∧ (atCursor 5 accF).parser.cur ≠ 8 ∧
    feed (atCursor 5 accF).par (atCursor 5 accF).parser [] = some (⟨5, accF⟩, 0, .noResultYet) ∧
    feed (atCursor 5 accF).par (atCursor 5 accF).parser [0x00#8, 0x00#8, 0xD0#8] =
      some (⟨0, accF⟩, 3, .decodedDatagram ⟨0x6F#8, 0x80000000#32⟩) := by decide +kernel

/-- V-PAR-11: an input whose outcome is the error. -/
theorem witness_ParserReportsOnlyChecksum : (atCursor 7 accF).parser.Inv Params.default ∧
    feed Params.default (atCursor 7 accF).parser [0xD1#8] =
      some (⟨0, accF.set 7 0xD1#8⟩, 1, .decodeError .checksumMismatch) :=
  ⟨(atCursor_inv 7 (by decide)).parser, by decide +kernel⟩

/-- V-PAR-3: cuts of one byte each, delivering the whole stream. -/
theorem witness_FragmentationInvariance : State.reset.parser.cur ≠ 8 ∧
    deliver Params.default State.reset.parser 0 bytesF [1, 1, 1, 1, 1, 1, 1, 1] =
      some (⟨0, accF⟩, [(8, .decodedDatagram ⟨0x6F#8, 0x80000000#32⟩)], []) := by decide +kernel

theorem valid_F : ValidResponse Params.default ⟨0x6F#8, 0x80000000#32⟩ bytesF := ⟨rfl, by decide +kernel⟩

/-- V-PAR-6, in one call and in chunks of 4, 3 and 6. -/
theorem witness_Resynchronisation : State.reset.ph = .idle ∧ State.reset.parser.cur = 0 ∧
    (∀ b ∈ [0x00#8, 0xFF#8, 0x11#8, 0xFF#8, 0x80#8], b ≠ State.reset.par.sync) ∧
    ValidResponse State.reset.par ⟨0x6F#8, 0x80000000#32⟩ bytesF ∧
    deliver State.reset.par State.reset.parser 0 ([0x00#8, 0xFF#8, 0x11#8, 0xFF#8, 0x80#8] ++ bytesF) [4, 3, 6] =
      some (⟨0, accF⟩, [(13, .decodedDatagram ⟨0x6F#8, 0x80000000#32⟩)], []) :=
  ⟨rfl, rfl, by decide, valid_F, by decide +kernel⟩

theorem witness_FalseSyncRecovery : State.reset.ph = .idle ∧ State.reset.parser.cur = 0 ∧
    State.reset.par.sync ≠ State.reset.par.sentinel ∧
    ValidResponse State.reset.par ⟨0x6F#8, 0x80000000#32⟩ bytesF ∧ 1 ≤ 2 := ⟨rfl, rfl, by decide, valid_F, by decide⟩

/-- The frame after one garbage byte, and after one sync byte (where the cursor stands at 1). -/
theorem witness_ParserFindsFrame :
    (State.reset.parser.cur = 0 ∧
      parseTrace Params.default State.reset.parser 0 ((0xA7#8 :: bytesF).take 1) = some (State.reset.parser, []) ∧
      ValidResponse Params.default ⟨0x6F#8, 0x80000000#32⟩ (((0xA7#8 :: bytesF).drop 1).take 8)) ∧
    ((parseTrace Params.default State.reset.parser 0 ((0x05#8 :: bytesF).take 1)).map (fun r => (r.1.cur, r.2)) = some (1, []) ∧
      Params.default.sync ≠ Params.default.sentinel) :=
  ⟨⟨rfl, by decide +kernel, rfl, by decide +kernel⟩, by decide +kernel, by decide⟩

/-- Also for the two statements that a transaction is its text. -/
theorem witness_CommandAccepted : State.reset.ph = .idle ∧ (atCursor 7 accF).ph = .idle := ⟨rfl, rfl⟩

theorem witness_ReadIgnoresDataAndBitSeven : (0x6F#8 : Byte).setWidth 7 = (0xEF#8 : Byte).setWidth 7 := rfl

theorem witness_OutOfPhaseHasNoStep :
    readReply.ph ≠ .idle ∧ State.reset.ph = .idle ∧ readFl.ph ≠ .wr ∧ readEcho.ph ≠ .fl ∧ readWr.ph ≠ .echo ∧
    readWr.ph ≠ .reply := by decide

theorem witness_WriteAllAnswered_FlushAnswered : readWr.ph = .wr ∧ readFl.ph = .fl := ⟨rfl, rfl⟩

/-- In `ECHO` with three bytes of four, in `REPLY` with seven bytes of eight, and one byte too many. -/
theorem witness_ReadExactAnswered :
    (readEcho.ph = .echo ∧ [0x05#8, 0x00#8, 0x6F#8] ≠ [] ∧ readEcho.got.val + [0x05#8, 0x00#8, 0x6F#8].length < readEcho.need.val) ∧
    (readReply.ph = .reply ∧ bytesF.take 7 ≠ [] ∧ readReply.got.val + (bytesF.take 7).length < readReply.need.val) ∧
    (readEcho.need.val < readEcho.got.val + (bytesF.take 5).length ∧ bytesF.take 5 ≠ []) := by decide

theorem witness_ReceiveBufferBytes : ∃ t, exec (.readExact (.ok [0x05#8, 0x00#8])) readEcho = .next t := ⟨_, rfl⟩

theorem witness_EchoCompletes :
    (readEcho.ph = .echo ∧ bytesF.take 4 ≠ [] ∧ readEcho.got.val + (bytesF.take 4).length = readEcho.need.val ∧
      readEcho.opr = .read) ∧
    (writeEcho.ph = .echo ∧ writeEcho.got.val + bytesF.length = writeEcho.need.val ∧ writeEcho.opr = .write) := by decide

theorem witness_EchoNotLookedAt : readEcho.ph = .echo ∧ [0x05#8].length = [0xAA#8].length ∧
    ∃ t, exec (.readExact (.ok [0x05#8])) readEcho = .next t := ⟨rfl, rfl, _, rfl⟩

/-- A reply in one answer, well framed (V-TXN-1) and not (V-TXN-14). -/
theorem witness_ReplyCompletes : readReply.Inv ∧ readReply.ph = .reply ∧ bytesF ≠ [] ∧
    readReply.got.val + bytesF.length = 8 ∧ (readReply.rxb.store readReply.got.val bytesF).b0 = readReply.par.sync ∧
    (readReply.rxb.store readReply.got.val bytesF).b1 = readReply.par.sentinel :=
  ⟨readReply_inv, rfl, by decide, rfl, rfl, rfl⟩

theorem witness_CancelKeepsRegisters : readWr.ph ≠ .idle ∧ readReply.ph ≠ .idle ∧ State.reset.ph = .idle := by decide

theorem witness_EngineFrame :
    (∃ t, exec (.readTxn 0x6F#8 0#32) State.reset = .next t) ∧ (∃ t, exec (.writeTxn 0x6F#8 0#32) State.reset = .next t) ∧
    (∃ t, exec (.writeAll .ok) readWr = .next t) ∧ (∃ t, exec (.flush .ok) readFl = .next t) ∧
    (∃ t, exec (.readExact (.ok [0x05#8])) readEcho = .next t ∧ readEcho.ph ≠ .reply) :=
  ⟨⟨_, rfl⟩, ⟨_, rfl⟩, ⟨_, rfl⟩, ⟨_, rfl⟩, _, rfl, by decide⟩

/-- A step from a state of the invariant that no reset leaves: the read in phase `ECHO`. -/
theorem witness_StepKeepsInvariant :
    { readEcho with inputs := [.op (.readExact (.ok [0x05#8]))] }.Inv ∧
    ∃ t, step { readEcho with inputs := [.op (.readExact (.ok [0x05#8]))] } = .next t :=
  ⟨read_inv _ rfl rfl rfl rfl rfl rfl rfl rfl (fun _ => ⟨rfl, by decide⟩) (fun h => nomatch h), _, rfl⟩

/-- The move from `ECHO` to `REPLY`. -/
theorem witness_PhaseMoves :
    partOf State.ph (step { readEcho with inputs := [.op (.readExact (.ok [0x05#8, 0x00#8, 0x6F#8, 0x84#8]))] }) =
      some .reply := by decide +kernel

theorem witness_ParametersNeverWritten :
    partOf State.slave (step (presented [.cfg 3#2])) = some 3#2 ∧ (presented [.cfg 3#2]).slave ≠ 3#2 := by decide

theorem witness_OutstandingCalls :
    (readWr.Inv ∧ outstanding readWr = some (.txWrite [0x05#8, 0x00#8, 0x6F#8, 0x84#8])) ∧
    (readFl.Inv ∧ outstanding readFl = some .txFlush) ∧ (readEcho.Inv ∧ outstanding readEcho = some (.rxRead 4)) ∧
    (readReply.Inv ∧ outstanding readReply = some (.rxRead 8)) :=
  ⟨⟨readWr_inv, by decide +kernel⟩, ⟨readFl_inv, rfl⟩, ⟨readEcho_inv, rfl⟩, readReply_inv, rfl⟩

/-- Two states that differ in dead registers: a read in `REPLY` with other bytes in `TXB`, in `RXB` above `GOT` and in the
accumulator. -/
theorem witness_DeadRegistersUnread : readReply.Inv ∧
    readReply.SameLive { readReply with txb := accF, rxb := accF, parser := ⟨0, accF⟩, txn := 0 } ∧
    readReply ≠ { readReply with txb := accF, rxb := accF, parser := ⟨0, accF⟩, txn := 0 } :=
  ⟨readReply_inv,
   { ph := rfl, parser := ⟨rfl, rfl⟩, res := rfl, slave := rfl, par := rfl, inputs := rfl, fresh := rfl
     request := fun h => nomatch h
     length := fun h => by rcases h with h | h <;> exact nomatch h
     latch := fun _ => ⟨rfl, rfl⟩, counts := fun _ => ⟨rfl, rfl⟩, collected := fun _ => rfl },
   by decide +kernel⟩

/-- V-TXN-12, V-TXN-3: two of the words. -/
theorem witness_ResultCodes :
    resultWord { State.reset with res := some (.err (.addressMismatch 0x6F#8 0x06#8)) } = some 0x76F0600000000#52 ∧
    { State.reset with res := some (.err (.addressMismatch 0x6F#8 0x06#8)) }.Inv ∧
    resultWord { State.reset with res := some .okWrite } = some 0#52 :=
  ⟨by decide +kernel,
   { parser := ⟨by decide, by decide, by decide⟩, busy := fun h => absurd rfl h, echo := fun h => nomatch h
     reply := fun h => nomatch h
     result := fun x h => by cases h; decide },
   by decide +kernel⟩

/-- Thirteen answers and still waiting: the bound of a read is reached. -/
theorem witness_TransactionsAreBounded :
    (runAnswers readWr (.write .ok :: .flush .ok :: List.replicate 11 (.read (.ok [0x05#8])))).2 = .waiting ∧
    ∃ t, exec (.readTxn 0x6F#8 0#32) State.reset = .next t := ⟨by decide +kernel, _, rfl⟩

/-- The echo of the write of P1 in one piece, of the read in two, and the reply in two. -/
def echo1 : List (List Byte) := [[0x05#8, 0x00#8, 0xEF#8, 0x00#8, 0x00#8, 0x00#8, 0x00#8, 0x0B#8]]

def echo2 : List (List Byte) := [[0x05#8], [0x00#8, 0x6F#8, 0x84#8]]

def reply : List (List Byte) := [[0x05#8, 0xFF#8, 0x6F#8], [0x80#8, 0x00#8, 0x00#8, 0x00#8, 0xD0#8]]

/-- P1, all its events presented at once. -/
def p1 : State := presented ((.op (.writeTxn 0x6F#8 0#32) :: answerEvents (goodAnswers echo1)) ++
  ((.op (.readTxn 0x6F#8 0#32) :: answerEvents (goodAnswers (echo2 ++ reply))) ++ []))

theorem witness_WriteThenReadSucceeds : p1.ph = .idle ∧
    Pieces (encodeWrite p1.par (0#6 ++ p1.slave) 0x6F#8 0#32) echo1 ∧
    Pieces (encodeRead p1.par (0#6 ++ p1.slave) 0x6F#8) echo2 ∧
    Pieces (replyBytes p1.par (0x6F#8 &&& 0x7F#8) 0x80000000#32) reply ∧
    p1.inputs = (.op (.writeTxn 0x6F#8 0#32) :: answerEvents (goodAnswers echo1)) ++
      ((.op (.readTxn 0x6F#8 0#32) :: answerEvents (goodAnswers (echo2 ++ reply))) ++ []) :=
  ⟨rfl, ⟨by decide +kernel, by decide⟩, ⟨by decide +kernel, by decide⟩, ⟨by decide +kernel, by decide⟩, rfl⟩

end Sys2Proof.Tests
end

section
/-! PROOFS. Reset and step (00_scope.md). -/

namespace Sys2Proof.Machine

/-- Settles O3: `step_op`, with the taken event's state written out by `takeEvent`. -/
theorem stepRunsOperation : Obligations.StepRunsOperation := by
  intro s i rest hhead
  rw [step_op hhead, takeEvent]

end Sys2Proof.Machine
end

section
/-! PROOFS. The parser's invariant over `FEED` (10_state.md R27, R28; 41_parser.md R157): what a result of `FEED` is a
result of, and the cursor that has no rule. -/

namespace Sys2Proof.Machine

variable {P : Params} {q q' : Parser} {b : Byte} {bs : List Byte} {n : Nat} {o : ParseOutcome}

/-- With the cursor at 0 the invariant asks nothing of the accumulator (R28). -/
theorem parserInv_of_cur_zero (h : q.cur = 0) : q.Inv P :=
  ⟨by simp [h], fun h0 => absurd h h0, fun h0 => absurd h h0⟩

/-- `FEED` is stuck where its first byte step is (R152). -/
theorem feed_cons_stuck (h : parseByte P b q = none) : feed P q (b :: bs) = none := by
  rw [feed, feedFrom, h]

/-- A result of `FEED` is the result of one of its byte steps, from a Parser State with all that byte steps keep
(R158). -/
theorem feed_result_of_parseByte {M : Parser → Prop}
    (hstep : ∀ b q q' o, M q → parseByte P b q = some (q', o) → M q')
    (hq : M q) (h : feed P q bs = some (q', n, o)) (ho : o ≠ .noResultYet) :
    ∃ b p, M p ∧ parseByte P b p = some (q', o) := by
  induction bs generalizing q n with
  | nil =>
    rw [feed_nil, Option.some.injEq, Prod.mk.injEq, Prod.mk.injEq] at h
    exact absurd h.2.2.symm ho
  | cons b bs ih =>
    rcases hp : parseByte P b q with _ | ⟨q1, o1⟩
    · simp [feed_cons_stuck hp] at h
    · by_cases ho1 : o1 = .noResultYet
      · subst ho1
        rw [feed_cons_none hp, Option.map_eq_some_iff] at h
        obtain ⟨⟨q2, m, o2⟩, hf, heq⟩ := h
        obtain ⟨rfl, -, rfl⟩ : q2 = q' ∧ m + 1 = n ∧ o2 = o := by simpa using heq
        exact ih (hstep _ _ _ _ hq hp) hf
      · rw [feed_cons_result hp ho1] at h
        obtain ⟨rfl, -, rfl⟩ : q1 = q' ∧ 1 = n ∧ o1 = o := by simpa using h
        exact ⟨b, q, hq, hp⟩

/-- `FEED` keeps the parser's invariant (R28). -/
theorem feed_inv (hi : q.Inv P) (h : feed P q bs = some (q', n, o)) : q'.Inv P :=
  feed_induction (fun _ _ _ _ => parseByte_inv) hi h

/-- The one error `FEED` can report is a wrong checksum (R157). -/
theorem feed_error (hi : q.Inv P) (h : feed P q bs = some (q', n, o)) {x : Error} (ho : o = .decodeError x) :
    x = .checksumMismatch := by
  obtain ⟨b, p, hp, hstep⟩ :=
    feed_result_of_parseByte (M := Parser.Inv P) (fun _ _ _ _ => parseByte_inv) hi h (by simp [ho])
  exact parseByte_error hp hstep ho

/-- Settles O31: below cursor 8 `FEED` is defined, and the two facts are those of its byte steps. -/
theorem parserReportsOnlyChecksum : Obligations.ParserReportsOnlyChecksum := by
  intro P q bs hi
  obtain ⟨q', n, o, h⟩ := feed_total P bs hi.cursor
  exact ⟨q', n, o, h, feed_inv hi h, fun _ => feed_error hi h⟩

/-- No rule selects a byte at `CUR` 8 (R152). -/
theorem parseByte_cursor_eight (P : Params) (b : Byte) (h : q.cur = 8) : parseByte P b q = none := by
  simp [parseByte, h]

/-- Settles O28: both operations are stuck at the byte step, and `Parser.Inv` excludes the cursor. -/
theorem cursorEightHasNoRule : Obligations.CursorEightHasNoRule := by
  intro s b bs hph hcur
  have hstuck := parseByte_cursor_eight s.par b hcur
  refine ⟨?_, ?_, fun hi => hi.parser.cursor hcur⟩
  · simp only [exec, execParseByte, atParserPort, hph, hstuck]
  · simp only [exec, execFeed, atParserPort, hph, feed_cons_stuck hstuck]

end Sys2Proof.Machine
end

section
/-! PROOFS. The block's invariant (10_state.md R28, R31 to R35; 60_exceptions.md R226): it holds after reset and every
operation keeps it, one lemma for each way a state is left. -/

namespace Sys2Proof.Machine

variable {s t : State}

/-- In `IDLE` the invariant is the parser's and the kind of the result (R33, R226). -/
theorem inv_of_idle (hph : s.ph = .idle) (hq : s.parser.Inv s.par)
    (hr : ∀ x, s.res = some (.err x) → x.endsTxn = true) : s.Inv where
  parser := hq
  busy := fun h => absurd hph h
  echo := fun h => by simp [hph] at h
  reply := fun h => by simp [hph] at h
  result := hr

/-- Taking an event touches the queue and the return port only. -/
theorem takeEvent_inv (rest : List Event) (hi : s.Inv) : (takeEvent rest s).Inv :=
  ⟨hi.parser, hi.busy, hi.echo, hi.reply, hi.result⟩

theorem giveBack_inv (v : Returned) (hi : s.Inv) : (giveBack v s).Inv :=
  ⟨hi.parser, hi.busy, hi.echo, hi.reply, hi.result⟩

/-- The parser's port is served in `IDLE`, where no other register bears on the Parser State (R22). -/
theorem withParser_inv {q : Parser} (hi : s.Inv) (hph : s.ph = .idle) (hq : q.Inv s.par) : (withParser q s).Inv :=
  inv_of_idle hph hq hi.result

theorem withSlave_inv (a : BitVec 2) (hi : s.Inv) (hph : s.ph = .idle) : (withSlave a s).Inv :=
  inv_of_idle hph hi.parser hi.result

theorem dropTxn_inv (hi : s.Inv) : (dropTxn s).Inv :=
  inv_of_idle rfl hi.parser (fun _ h => by simp at h)

/-- A transaction may end with any success and with an error of R226. -/
theorem finish_inv {r : TxnResult} (hi : s.Inv) (hr : ∀ x, r = .err x → x.endsTxn = true) : (finish r s).Inv :=
  inv_of_idle rfl hi.parser (fun x h => hr x (Option.some.inj h))

theorem finish_err_inv {x : Error} (hi : s.Inv) (hx : x.endsTxn = true) : (finish (.err x) s).Inv :=
  finish_inv hi (fun _ h => TxnResult.err.inj h ▸ hx)

theorem blockReset_inv (s : State) : (blockReset s).Inv :=
  inv_of_idle rfl (parserInv_of_cur_zero rfl) (fun _ h => by simp at h)

/-- The payload read back from a file that holds a write request (R63, R92). -/
theorem unbe32_store_encodeWrite (f : Bytes8) (P : Params) (slave reg : Byte) (data : Word) :
    unbe32 (f.store 0 (encodeWrite P slave reg data)).b3 (f.store 0 (encodeWrite P slave reg data)).b4
      (f.store 0 (encodeWrite P slave reg data)).b5 (f.store 0 (encodeWrite P slave reg data)).b6 = data :=
  unbe32_be32 data

/-- Accepting a command latches its request (R31, R34, R185). -/
theorem acceptCommand_latched (op : Op) (reg : Byte) (data : Word) (s : State) :
    RequestLatched (acceptCommand op reg data s) := by
  refine ⟨maskReg_msb reg, rfl, ?_⟩
  cases op with
  | read =>
    have hbytes := Bytes8.take_store s.txb 0 (encodeRead s.par (zextSlave s.slave) reg) (by simp)
    simpa [requestOf] using hbytes
  | write =>
    have hbytes := Bytes8.toList_store_eight s.txb (encodeWrite s.par (zextSlave s.slave) reg data) rfl
    simpa [requestOf, unbe32_store_encodeWrite] using hbytes

theorem acceptCommand_inv (op : Op) (reg : Byte) (data : Word) (s : State) : (acceptCommand op reg data s).Inv where
  parser := parserInv_of_cur_zero rfl
  busy := fun _ => ⟨rfl, rfl, acceptCommand_latched op reg data s⟩
  echo := fun h => by simp at h
  reply := fun h => by simp at h
  result := fun _ h => by simp at h

/-- The request is written (R187). -/
theorem goTo_fl_inv (hi : s.Inv) (hph : s.ph = .wr) : (goTo .fl s).Inv where
  parser := hi.parser
  busy := fun _ => hi.busy (by simp [hph])
  echo := fun h => by simp at h
  reply := fun h => by simp at h
  result := hi.result

theorem requestLength_pos (op : Op) : 0 < requestLength op := by cases op <;> decide

/-- The echo's read begins, of as many bytes as were written, which is at least one (R188). -/
theorem goTo_echo_inv (hi : s.Inv) (hph : s.ph = .fl) : (goTo .echo (beginReadExact s.txn s)).Inv where
  parser := hi.parser
  busy := fun _ => hi.busy (by simp [hph])
  echo := fun _ => by
    obtain ⟨-, -, -, htxn, -⟩ := hi.busy (by simp [hph])
    exact ⟨rfl, show 0 < s.txn from htxn ▸ requestLength_pos s.opr⟩
  reply := fun h => by simp at h
  result := hi.result

/-- Bytes are collected and some are still wanted (R190). -/
theorem collect_inv {bs : List Byte} (hi : s.Inv) (hb : bs ≠ []) (hroom : bs.length ≤ room s)
    (hmore : s.got.val + bs.length < s.need.val) : (collect bs s).Inv := by
  have hgot : (collect bs s).got < s.need := by rw [Fin.lt_def, collect_got_val hroom hb]; exact hmore
  exact
    { parser := hi.parser
      busy := hi.busy
      echo := fun hph => ⟨(hi.echo hph).1, hgot⟩
      reply := fun hph => by
        obtain ⟨hopr, hneed, -⟩ := hi.reply hph
        exact ⟨hopr, hneed, hneed ▸ hgot⟩
      result := hi.result }

/-- The end of the echo: a write is done, a read goes on to a reply of eight bytes (R192). -/
theorem echoComplete_inv (bs : List Byte) (hi : s.Inv) (hph : s.ph = .echo) : (echoComplete (collect bs s)).Inv := by
  cases hopr : s.opr with
  | write =>
    simp only [echoComplete, collect_opr, hopr]
    exact inv_of_idle rfl hi.parser (fun _ h => by simp at h)
  | read =>
    simp only [echoComplete, collect_opr, hopr]
    exact
      { parser := hi.parser
        busy := fun _ => hi.busy (by simp [hph])
        echo := fun h => by simp at h
        reply := fun _ => ⟨hopr, rfl, show (0 : Fin 9) < 8 by decide⟩
        result := hi.result }

/-- The error of a reply is of R226: `NoResponse`, a wrong checksum, or an address other than the one sent (R196, R197,
R229). -/
theorem replyResult_endsTxn {exp : Byte} {o : ParseOutcome} (hexp : exp.msb = false)
    (ho : ∀ x, o = .decodeError x → x = .checksumMismatch) (x : Error) (h : replyResult exp o = .err x) :
    x.endsTxn = true := by
  cases o with
  | noResultYet => cases h; rfl
  | decodeError y => cases h; rw [ho _ rfl]; rfl
  | decodedDatagram resp =>
    simp only [replyResult] at h
    split_ifs at h with hne
    cases h
    simpa [Error.endsTxn, hexp] using Ne.symm hne

/-- An answer to `RxRead` keeps the invariant, in each of the cases of R190, R192 and R196. -/
theorem execReadExact_inv {a : RxAnswer} (hi : s.Inv) (h : execReadExact a s = .next t) : t.Inv := by
  obtain ⟨-, ⟨e, -, rfl⟩ | ⟨-, rfl⟩ | ⟨bs, -, hb, hroom, hbytes⟩⟩ := readExact_cases h
  · exact finish_err_inv hi rfl
  · exact finish_err_inv hi rfl
  · obtain ⟨hmore, rfl⟩ | ⟨-, hph, rfl⟩ | ⟨-, hph, q, n, o, hfeed, rfl⟩ := hbytes
    · exact collect_inv hi hb hroom hmore
    · exact echoComplete_inv bs hi hph
    · obtain ⟨-, -, hexp, -⟩ := hi.busy (by simp [hph])
      have hresult := replyResult_endsTxn hexp (fun _ => feed_error hi.parser hfeed)
      exact inv_of_idle rfl (feed_inv hi.parser hfeed) (fun x hx => hresult x (Option.some.inj hx))

/-- Every operation keeps the invariant. -/
theorem exec_inv {i : Instr} (hi : s.Inv) (h : exec i s = .next t) : t.Inv := by
  obtain ⟨-, v, rfl⟩ | ⟨hph, -, rfl⟩ | ⟨hph, b, q, o, -, hq, rfl⟩ | ⟨hph, bs, q, n, o, -, hq, rfl⟩ |
    ⟨-, r, d, -, rfl⟩ | ⟨-, r, d, -, rfl⟩ | ⟨hph, -, rfl⟩ | ⟨-, e, -, rfl⟩ | ⟨hph, -, rfl⟩ | ⟨-, e, -, rfl⟩ |
    ⟨a, -, ha⟩ | ⟨-, -, rfl⟩ := exec_cases h
  · exact giveBack_inv v hi
  · exact withParser_inv hi hph (parserInv_of_cur_zero rfl)
  · exact giveBack_inv _ (withParser_inv hi hph (parseByte_inv hi.parser hq))
  · exact giveBack_inv _ (withParser_inv hi hph (feed_inv hi.parser hq))
  · exact acceptCommand_inv _ r d s
  · exact acceptCommand_inv _ r d s
  · exact goTo_fl_inv hi hph
  · exact finish_err_inv hi rfl
  · exact goTo_echo_inv hi hph
  · exact finish_err_inv hi rfl
  · exact execReadExact_inv hi ha
  · exact dropTxn_inv hi

/-- Settles O48, by the three things a step can do. -/
theorem stepKeepsInvariant : Obligations.StepKeepsInvariant := by
  intro s t hi h
  obtain ⟨e, rest, -, ⟨i, hexec, -⟩ | ⟨hph, a, -, rfl⟩ | ⟨-, rfl⟩⟩ := step_cases h
  · exact exec_inv (takeEvent_inv rest hi) hexec
  · exact withSlave_inv a (takeEvent_inv rest hi) hph
  · exact blockReset_inv _

/-- Settles O2: after reset the phase is `IDLE`, the cursor 0, and there is no result. -/
theorem resetMeetsInvariant : Obligations.ResetMeetsInvariant :=
  inv_of_idle rfl (parserInv_of_cur_zero rfl) (fun _ h => nomatch h)

end Sys2Proof.Machine
end

section
/-! PROOFS. No step reads a register before it is written (10_state.md R28, R48; 42_transaction.md R203): each
operation, run on two states that agree on the live registers, ends alike on both. -/

namespace Sys2Proof.Machine

variable {P : Params} {q r : Parser} {s t : State}

/-- The parser is stuck on both sides, or leaves Parser States that agree on what is live and says the same. -/
def SameParse {α : Type} (x y : Option (Parser × α)) : Prop :=
  (x = none ∧ y = none) ∨ ∃ q r a, x = some (q, a) ∧ y = some (r, a) ∧ q.SameLive r

/-- A byte written on top of live bytes is live. -/
theorem take_set_congr {f g : Bytes8} {i : Nat} (b : Byte) (hi : i < 8) (h : f.toList.take i = g.toList.take i) :
    (f.set i b).toList.take (i + 1) = (g.set i b).toList.take (i + 1) := by
  have hset (f : Bytes8) : (f.set i b).toList.take (i + 1) = f.toList.take i ++ [b] :=
    Bytes8.take_store f i [b] hi
  rw [hset f, hset g, h]

/-- Files whose first eight bytes agree are equal. -/
theorem eq_of_take_eight {f g : Bytes8} (h : f.toList.take 8 = g.toList.take 8) : f = g :=
  Bytes8.toList_injective (by rwa [List.take_of_length_le (by simp), List.take_of_length_le (by simp)] at h)

/-- With the cursor at 0 no accumulator byte is live. -/
theorem parserSameLive_of_cur_zero (hq : q.cur = 0) (hr : r.cur = 0) : q.SameLive r :=
  ⟨hq.trans hr.symm, by simp [hq]⟩

/-- Looking for the sync byte reads no accumulator byte (R153). -/
theorem seekSync_sameLive (P : Params) (b : Byte) (q r : Parser) : (seekSync P b q).SameLive (seekSync P b r) := by
  unfold seekSync
  split_ifs
  · exact ⟨rfl, take_set_congr b (by decide) rfl⟩
  · exact parserSameLive_of_cur_zero rfl rfl

/-- Looking for the sentinel reads none either (R154). -/
theorem seekSource_sameLive (P : Params) (b : Byte) (h : q.SameLive r) (hq : q.cur = 1) :
    (seekSource P b q).SameLive (seekSource P b r) := by
  unfold seekSource
  split_ifs
  · exact ⟨rfl, take_set_congr b (by decide) (by simpa [hq] using h.2)⟩
  · exact seekSync_sameLive P b q r

/-- Accumulating writes on top of the live bytes, and decodes when all eight are live (R155). -/
theorem accumulate_sameLive (P : Params) (b : Byte) (h : q.SameLive r) (hq : q.cur ≠ 8) :
    SameParse (some (accumulate P b q)) (some (accumulate P b r)) := by
  obtain ⟨cur, acc⟩ := q
  obtain ⟨cur', acc'⟩ := r
  obtain ⟨rfl, hacc⟩ : cur = cur' ∧ acc.toList.take cur.val = acc'.toList.take cur.val := h
  have hlt : cur.val < 8 := by simp only [ne_eq, Fin.ext_iff] at hq; omega
  have hset := take_set_congr b hlt hacc
  unfold accumulate
  split_ifs with h7
  · have hcur : cur = 7 := h7
    subst hcur
    exact .inr ⟨_, _, _, rfl, by rw [eq_of_take_eight hset], parserSameLive_of_cur_zero rfl rfl⟩
  · have hval : (cur + 1).val = cur.val + 1 := Fin.val_add_one_of_lt' (by omega)
    exact .inr ⟨_, _, _, rfl, rfl, rfl, by simpa only [hval] using hset⟩

/-- A byte step ends alike (R152). -/
theorem parseByte_sameLive (P : Params) (b : Byte) (h : q.SameLive r) :
    SameParse (parseByte P b q) (parseByte P b r) := by
  unfold parseByte
  rw [← h.1]
  split_ifs with h0 h1 h8
  · exact .inr ⟨_, _, _, rfl, rfl, seekSync_sameLive P b q r⟩
  · exact .inr ⟨_, _, _, rfl, rfl, seekSource_sameLive P b h h1⟩
  · exact .inl ⟨rfl, rfl⟩
  · exact accumulate_sameLive P b h h8

/-- `FEED` ends alike (R158). -/
theorem feed_sameLive (P : Params) (bs : List Byte) (h : q.SameLive r) : SameParse (feed P q bs) (feed P r bs) := by
  induction bs generalizing q r with
  | nil => exact .inr ⟨_, _, _, rfl, rfl, h⟩
  | cons b bs ih =>
    obtain ⟨hq, hr⟩ | ⟨q1, r1, o, hq, hr, hlive⟩ := parseByte_sameLive P b h
    · exact .inl ⟨feed_cons_stuck hq, feed_cons_stuck hr⟩
    · by_cases ho : o = .noResultYet
      · subst ho
        rw [feed_cons_none hq, feed_cons_none hr]
        obtain ⟨hq', hr'⟩ | ⟨q2, r2, a, hq', hr', hlive'⟩ := ih hlive
        · exact .inl ⟨by rw [hq']; rfl, by rw [hr']; rfl⟩
        · exact .inr ⟨q2, r2, _, by rw [hq']; rfl, by rw [hr']; rfl, hlive'⟩
      · exact .inr ⟨q1, r1, _, feed_cons_result hq ho, feed_cons_result hr ho, hlive⟩

/-! ### The updates -/

/-- In `IDLE` the engine's registers are dead (R48). -/
theorem sameLive_of_idle (hs : s.ph = .idle) (ht : t.ph = .idle) (hparser : s.parser.SameLive t.parser)
    (hres : s.res = t.res) (hslave : s.slave = t.slave) (hpar : s.par = t.par) (hinputs : s.inputs = t.inputs)
    (hfresh : s.fresh = t.fresh) : s.SameLive t where
  ph := hs.trans ht.symm
  parser := hparser
  res := hres
  slave := hslave
  par := hpar
  inputs := hinputs
  fresh := hfresh
  request := fun h => by simp [hs] at h
  length := fun h => by simp [hs] at h
  latch := fun h => absurd hs h
  counts := fun h => by simp [hs] at h
  collected := fun h => by simp [hs] at h

theorem takeEvent_sameLive (rest : List Event) (h : s.SameLive t) : (takeEvent rest s).SameLive (takeEvent rest t) :=
  { h with inputs := rfl }

theorem giveBack_sameLive (v : Returned) (h : s.SameLive t) : (giveBack v s).SameLive (giveBack v t) := { h with }

theorem withParser_sameLive (h : s.SameLive t) (hq : q.SameLive r) : (withParser q s).SameLive (withParser r t) :=
  { h with parser := hq }

theorem withSlave_sameLive (a : BitVec 2) (h : s.SameLive t) : (withSlave a s).SameLive (withSlave a t) :=
  { h with slave := rfl }

theorem finish_sameLive (x : TxnResult) (h : s.SameLive t) : (finish x s).SameLive (finish x t) :=
  sameLive_of_idle rfl rfl h.parser rfl h.slave h.par h.inputs h.fresh

theorem dropTxn_sameLive (h : s.SameLive t) : (dropTxn s).SameLive (dropTxn t) :=
  sameLive_of_idle rfl rfl h.parser rfl h.slave h.par h.inputs h.fresh

/-- The free values of a block reset are drawn at the same place (log 6). -/
theorem blockReset_sameLive (h : s.SameLive t) : (blockReset s).SameLive (blockReset t) :=
  sameLive_of_idle rfl rfl (parserSameLive_of_cur_zero rfl rfl) rfl h.slave h.par h.inputs
    (congrArg (· + drawnByReset) h.fresh)

/-- The bytes of a request that is built do not depend on what `TXB` held (R185). -/
theorem take_acceptCommand_txb (op : Op) (reg : Byte) (data : Word) (s : State) :
    (acceptCommand op reg data s).txb.toList.take (requestLength op).val = requestOf s.par s.slave op reg data := by
  have hlen : (requestOf s.par s.slave op reg data).length = (requestLength op).val := by cases op <;> rfl
  have hbytes := Bytes8.take_store s.txb 0 (requestOf s.par s.slave op reg data) (by rw [hlen]; omega)
  simpa [hlen] using hbytes

/-- An accepted command writes every register that is live in `WR`. -/
theorem acceptCommand_sameLive (op : Op) (reg : Byte) (data : Word) (h : s.SameLive t) :
    (acceptCommand op reg data s).SameLive (acceptCommand op reg data t) where
  ph := rfl
  parser := parserSameLive_of_cur_zero rfl rfl
  res := rfl
  slave := h.slave
  par := h.par
  inputs := h.inputs
  fresh := h.fresh
  request := fun _ => by
    rw [acceptCommand_txn, acceptCommand_txn, take_acceptCommand_txb, take_acceptCommand_txb, h.par, h.slave]
  length := fun _ => rfl
  latch := fun _ => ⟨rfl, rfl⟩
  counts := fun hp => by simp at hp
  collected := fun hp => by simp at hp

/-- `FL` reads the length and the latch, which `WR` kept. -/
theorem goTo_fl_sameLive (h : s.SameLive t) (hph : s.ph = .wr) : (goTo .fl s).SameLive (goTo .fl t) :=
  { h with
    ph := rfl
    request := fun hp => by simp at hp
    length := fun _ => h.length (.inl hph)
    latch := fun _ => h.latch (by simp [hph])
    counts := fun hp => by simp at hp
    collected := fun hp => by simp at hp }

/-- A read-exact begins, of `n` bytes on both sides: its counts are written, and no byte is collected (R189). -/
theorem beginReadExact_sameLive {p : Phase} {m n : Fin 9} (h : s.SameLive t) (hbusy : s.ph ≠ .idle)
    (hp : p = .echo ∨ p = .reply) (hmn : m = n) :
    (goTo p (beginReadExact m s)).SameLive (goTo p (beginReadExact n t)) :=
  { h with
    ph := rfl
    request := fun hw => by rcases hp with rfl | rfl <;> simp at hw
    length := fun hw => by rcases hp with rfl | rfl <;> simp at hw
    latch := fun _ => h.latch hbusy
    counts := fun _ => ⟨rfl, hmn⟩
    collected := fun _ => rfl }

/-- Bytes within the room are stored on top of the collected ones (R190). -/
theorem collect_sameLive {bs : List Byte} (h : s.SameLive t) (hph : s.ph = .echo ∨ s.ph = .reply) (hb : bs ≠ [])
    (hroom : bs.length ≤ room s) : (collect bs s).SameLive (collect bs t) := by
  obtain ⟨hgot, hneed⟩ := h.counts hph
  have hfit : s.got.val + bs.length ≤ 8 := by
    have hlt := s.need.isLt
    have hpos := List.length_pos_iff.2 hb
    simp only [room] at hroom
    omega
  exact
    { h with
      request := h.request
      counts := fun _ => ⟨by simp only [collect_got, hgot], hneed⟩
      collected := fun hr => by
        rw [collect_got_val hroom hb, collect_rxb, collect_rxb, ← hgot, Bytes8.take_store _ _ _ hfit,
          Bytes8.take_store _ _ _ hfit, h.collected hr] }

/-- The same call is outstanding (R33). -/
theorem outstanding_sameLive (h : s.SameLive t) : outstanding s = outstanding t := by
  have hroom (hph : s.ph = .echo ∨ s.ph = .reply) : room s = room t := by
    obtain ⟨hgot, hneed⟩ := h.counts hph
    simp only [room, hgot, hneed]
  unfold outstanding
  rw [← h.ph]
  cases hph : s.ph with
  | idle => rfl
  | wr => simp only [h.request hph]
  | fl => rfl
  | echo => simp only [hroom (.inl hph)]
  | reply => simp only [hroom (.inr hph)]

/-! ### The operations -/

/-- The operations of the codec read the parameters only (R120). -/
theorem exec_handsBackOnly {i : Instr} (hi : handsBackOnly i = true) (hpar : s.par = t.par) :
    ∃ v, exec i s = .next (giveBack v s) ∧ exec i t = .next (giveBack v t) := by
  cases i with
  | reqRead sync slave reg ck => exact ⟨_, rfl, by simp only [exec, execReqRead, hpar]⟩
  | reqWrite sync slave reg data ck => exact ⟨_, rfl, by simp only [exec, execReqWrite, hpar]⟩
  | respRead sync source reg data ck => exact ⟨_, rfl, by simp only [exec, execRespRead, hpar]⟩
  | encodeRead slave reg => exact ⟨_, rfl, by simp only [exec, execEncodeRead, hpar]⟩
  | encodeWrite slave reg data => exact ⟨_, rfl, by simp only [exec, execEncodeWrite, hpar]⟩
  | decodeResp b => exact ⟨_, rfl, by simp only [exec, execDecodeResp, hpar]⟩
  | decodeRespSlice bs => exact ⟨_, rfl, by simp only [exec, execDecodeRespSlice, hpar]⟩
  | reqwFields b => exact ⟨_, rfl, rfl⟩
  | classifyAddr raw => exact ⟨_, rfl, by simp only [exec, execClassifyAddr, hpar]⟩
  | readTxn | writeTxn | parserReset | parseByte | feed | writeAll | flush | readExact | cancel => cases hi

/-- The parser's port is served on both sides or closed on both (R22). -/
theorem atParserPort_sameEnd {x y : Result} (hph : s.ph = t.ph) (hxy : SameEnd x y) :
    SameEnd (atParserPort s x) (atParserPort t y) := by
  unfold atParserPort
  rw [← hph]
  cases s.ph with
  | idle => exact hxy
  | wr | fl | echo | reply => rfl

theorem execParserReset_sameEnd (h : s.SameLive t) (hret : s.ret = t.ret) :
    SameEnd (execParserReset s) (execParserReset t) :=
  atParserPort_sameEnd h.ph ⟨withParser_sameLive h (parserSameLive_of_cur_zero rfl rfl), hret⟩

theorem execParseByte_sameEnd (b : Byte) (h : s.SameLive t) : SameEnd (execParseByte b s) (execParseByte b t) := by
  refine atParserPort_sameEnd h.ph ?_
  rw [← h.par]
  obtain ⟨hs, ht⟩ | ⟨q, r, o, hs, ht, hlive⟩ := parseByte_sameLive s.par b h.parser <;> rw [hs, ht]
  · rfl
  · exact ⟨giveBack_sameLive _ (withParser_sameLive h hlive), rfl⟩

theorem execFeed_sameEnd (bs : List Byte) (h : s.SameLive t) : SameEnd (execFeed bs s) (execFeed bs t) := by
  refine atParserPort_sameEnd h.ph ?_
  rw [← h.par]
  obtain ⟨hs, ht⟩ | ⟨q, r, ⟨n, o⟩, hs, ht, hlive⟩ := feed_sameLive s.par bs h.parser <;> rw [hs, ht]
  · rfl
  · exact ⟨giveBack_sameLive _ (withParser_sameLive h hlive), rfl⟩

theorem command_sameEnd (op : Op) (reg : Byte) (data : Word) (h : s.SameLive t) (hret : s.ret = t.ret) :
    SameEnd (command op reg data s) (command op reg data t) := by
  unfold command
  rw [← h.ph]
  cases s.ph with
  | idle => exact ⟨acceptCommand_sameLive op reg data h, hret⟩
  | wr | fl | echo | reply => rfl

theorem execWriteAll_sameEnd (a : TxAnswer) (h : s.SameLive t) (hret : s.ret = t.ret) :
    SameEnd (execWriteAll a s) (execWriteAll a t) := by
  unfold execWriteAll
  rw [← h.ph]
  cases hph : s.ph with
  | wr =>
    cases a with
    | ok => exact ⟨goTo_fl_sameLive h hph, hret⟩
    | err e => exact ⟨finish_sameLive _ h, hret⟩
  | idle | fl | echo | reply => rfl

theorem execFlush_sameEnd (a : TxAnswer) (h : s.SameLive t) (hret : s.ret = t.ret) :
    SameEnd (execFlush a s) (execFlush a t) := by
  unfold execFlush
  rw [← h.ph]
  cases hph : s.ph with
  | fl =>
    cases a with
    | ok => exact ⟨beginReadExact_sameLive h (by simp [hph]) (.inl rfl) (h.length (.inr hph)), hret⟩
    | err e => exact ⟨finish_sameLive _ h, hret⟩
  | idle | wr | echo | reply => rfl

theorem execCancel_sameEnd (h : s.SameLive t) (hret : s.ret = t.ret) : SameEnd (execCancel s) (execCancel t) := by
  unfold execCancel
  rw [← h.ph]
  cases s.ph with
  | idle => rfl
  | wr | fl | echo | reply => exact ⟨dropTxn_sameLive h, hret⟩

/-- The end of the echo reads the latch (R192). -/
theorem echoComplete_sameEnd (h : s.SameLive t) (hph : s.ph = .echo) (hret : s.ret = t.ret) :
    SameEnd (.next (echoComplete s)) (.next (echoComplete t)) := by
  obtain ⟨hopr, -⟩ := h.latch (by simp [hph])
  unfold echoComplete
  rw [← hopr]
  cases s.opr with
  | write => exact ⟨finish_sameLive _ h, hret⟩
  | read => exact ⟨beginReadExact_sameLive h (by simp [hph]) (.inr rfl) rfl, hret⟩

/-- The end of the reply reads all eight bytes of `RXB`, and all eight are live (R196). -/
theorem replyComplete_sameEnd (h : s.SameLive t) (hph : s.ph = .reply) (hgot : s.got = 8) (hret : s.ret = t.ret) :
    SameEnd (replyComplete s) (replyComplete t) := by
  obtain ⟨-, hexp⟩ := h.latch (by simp [hph])
  have hrxb : s.rxb = t.rxb := eq_of_take_eight (by simpa [hgot] using h.collected hph)
  unfold replyComplete
  rw [← h.par, ← hexp, ← hrxb]
  obtain ⟨hs, ht⟩ | ⟨q, r, ⟨n, o⟩, hs, ht, hlive⟩ := feed_sameLive s.par s.rxb.toList h.parser <;> rw [hs, ht]
  · rfl
  · exact ⟨finish_sameLive _ (withParser_sameLive h hlive), hret⟩

/-- Some bytes, within the room or not, and enough of them or not (R190). -/
theorem readAnswer_cons (f : State → Result) (b : Byte) (bs : List Byte) (s : State) :
    readAnswer f (.ok (b :: bs)) s =
      if (b :: bs).length ≤ room s then
        if (collect (b :: bs) s).got < s.need then .next (collect (b :: bs) s) else f (collect (b :: bs) s)
      else .refused .answerTooLong := rfl

/-- An answer to `RxRead` is taken by the counts; what completes them must end alike (R190). -/
theorem readAnswer_sameEnd {f : State → Result} (a : RxAnswer) (h : s.SameLive t)
    (hph : s.ph = .echo ∨ s.ph = .reply) (hret : s.ret = t.ret)
    (hf : ∀ bs, (collect bs s).SameLive (collect bs t) → (collect bs s).got = s.need →
      SameEnd (f (collect bs s)) (f (collect bs t))) :
    SameEnd (readAnswer f a s) (readAnswer f a t) := by
  obtain ⟨hgot, hneed⟩ := h.counts hph
  match a with
  | .err e => exact ⟨finish_sameLive _ h, hret⟩
  | .ok [] => exact ⟨finish_sameLive _ h, hret⟩
  | .ok (b :: bs) =>
    have hlive (hfit : (b :: bs).length ≤ room s) := collect_sameLive h hph (by simp) hfit
    have hroom : room t = room s := by simp only [room, hgot, hneed]
    have hcount : (collect (b :: bs) t).got = (collect (b :: bs) s).got := by simp only [collect_got, hgot]
    rw [readAnswer_cons, readAnswer_cons, hroom, hcount, ← hneed]
    by_cases hfit : (b :: bs).length ≤ room s
    · rw [if_pos hfit, if_pos hfit]
      by_cases hmore : (collect (b :: bs) s).got < s.need
      · rw [if_pos hmore, if_pos hmore]
        exact ⟨hlive hfit, hret⟩
      · rw [if_neg hmore, if_neg hmore]
        refine hf _ (hlive hfit) (Fin.ext ?_)
        have hval := collect_got_val hfit (by simp)
        rw [Fin.lt_def] at hmore
        simp only [room] at hfit
        have hpos : 0 < (b :: bs).length := Nat.succ_pos _
        omega
    · rw [if_neg hfit, if_neg hfit]
      rfl

/-- Where the invariant is needed: a reply is complete at eight bytes (R189, R196). -/
theorem execReadExact_sameEnd (a : RxAnswer) (hi : s.Inv) (h : s.SameLive t) (hret : s.ret = t.ret) :
    SameEnd (execReadExact a s) (execReadExact a t) := by
  unfold execReadExact
  rw [← h.ph]
  cases hph : s.ph with
  | echo =>
    exact readAnswer_sameEnd a h (.inl hph) hret fun _ hlive _ => echoComplete_sameEnd hlive hph hret
  | reply =>
    obtain ⟨-, hneed, -⟩ := hi.reply hph
    exact readAnswer_sameEnd a h (.inr hph) hret fun _ hlive hfull =>
      replyComplete_sameEnd hlive hph (hfull.trans hneed) hret
  | idle | wr | fl => rfl

theorem configure_sameEnd (a : BitVec 2) (h : s.SameLive t) (hret : s.ret = t.ret) :
    SameEnd (configure a s) (configure a t) := by
  unfold configure
  rw [← h.ph]
  cases s.ph with
  | idle => exact ⟨withSlave_sameLive a h, hret⟩
  | wr | fl | echo | reply => rfl

/-- Every operation ends alike. -/
theorem exec_sameEnd (i : Instr) (hi : s.Inv) (h : s.SameLive t) (hret : s.ret = t.ret) :
    SameEnd (exec i s) (exec i t) := by
  have hcodec (hb : handsBackOnly i = true) : SameEnd (exec i s) (exec i t) := by
    obtain ⟨v, hs, ht⟩ := exec_handsBackOnly hb h.par
    rw [hs, ht]
    exact ⟨giveBack_sameLive v h, rfl⟩
  cases i with
  | reqRead | reqWrite | respRead | encodeRead | encodeWrite | decodeResp | decodeRespSlice | reqwFields
  | classifyAddr => exact hcodec rfl
  | readTxn reg ignored => exact command_sameEnd .read reg ignored h hret
  | writeTxn reg data => exact command_sameEnd .write reg data h hret
  | parserReset => exact execParserReset_sameEnd h hret
  | parseByte b => exact execParseByte_sameEnd b h
  | feed bs => exact execFeed_sameEnd bs h
  | writeAll a => exact execWriteAll_sameEnd a h hret
  | flush a => exact execFlush_sameEnd a h hret
  | readExact a => exact execReadExact_sameEnd a hi h hret
  | cancel => exact execCancel_sameEnd h hret

/-- Every event ends alike. -/
theorem runEvent_sameEnd (e : Event) (hi : s.Inv) (h : s.SameLive t) (hret : s.ret = t.ret) :
    SameEnd (runEvent e s) (runEvent e t) := by
  cases e with
  | word bs =>
    simp only [runEvent, ← h.par]
    cases decode s.par bs with
    | ok i => exact exec_sameEnd i hi h hret
    | error d => rfl
  | op i => exact exec_sameEnd i hi h hret
  | cfg a => exact configure_sameEnd a h hret
  | reset => exact ⟨blockReset_sameLive h, hret⟩

/-- Settles O52: the call is read off live registers, and taking the event keeps the premises of `runEvent_sameEnd`. -/
theorem deadRegistersUnread : Obligations.DeadRegistersUnread := by
  intro s t hi h
  refine ⟨outstanding_sameLive h, ?_⟩
  unfold step takeAndRun
  rw [← h.inputs]
  cases s.inputs with
  | nil => rfl
  | cons e rest => exact runEvent_sameEnd e (takeEvent_inv rest hi) (takeEvent_sameLive rest h) rfl

end Sys2Proof.Machine
end

section
/-! PROOFS. What a step may change (10_state.md R38, R46; 42_transaction.md R204), and the call that is outstanding in
each phase (R23, R31, R33). -/

namespace Sys2Proof.Machine

variable {s t : State}

/-- The moves of `PH` in one step (R204). -/
def PhaseMove (s t : State) : Prop :=
  t.ph = s.ph ∨ t.ph = .idle ∨ (s.ph = .idle ∧ t.ph = .wr) ∨ (s.ph = .wr ∧ t.ph = .fl) ∨
    (s.ph = .fl ∧ t.ph = .echo) ∨ (s.ph = .echo ∧ t.ph = .reply ∧ s.opr = .read)

theorem phaseMove_of_stay (h : t.ph = s.ph) : PhaseMove s t := .inl h

theorem phaseMove_of_end (h : t.ph = .idle) : PhaseMove s t := .inr (.inl h)

/-- The end of the echo, by the latched operation (R192). -/
theorem echoComplete_cases (s : State) :
    (s.opr = .write ∧ echoComplete s = finish .okWrite s) ∨
    (s.opr = .read ∧ echoComplete s = goTo .reply (beginReadExact 8 s)) := by
  cases hopr : s.opr with
  | write => exact .inl ⟨rfl, by simp only [echoComplete, hopr]⟩
  | read => exact .inr ⟨rfl, by simp only [echoComplete, hopr]⟩

theorem execReadExact_phaseMove {a : RxAnswer} (h : execReadExact a s = .next t) : PhaseMove s t := by
  obtain ⟨-, ⟨e, -, rfl⟩ | ⟨-, rfl⟩ | ⟨bs, -, -, -, ⟨-, rfl⟩ | ⟨-, hph, rfl⟩ | ⟨-, -, q, n, o, -, rfl⟩⟩⟩ :=
    readExact_cases h
  · exact phaseMove_of_end rfl
  · exact phaseMove_of_end rfl
  · exact phaseMove_of_stay rfl
  · obtain ⟨-, heq⟩ | ⟨hopr, heq⟩ := echoComplete_cases (collect bs s) <;> rw [heq]
    · exact phaseMove_of_end rfl
    · exact .inr (.inr (.inr (.inr (.inr ⟨hph, rfl, hopr⟩))))
  · exact phaseMove_of_end rfl

theorem exec_phaseMove {i : Instr} (h : exec i s = .next t) : PhaseMove s t := by
  obtain ⟨-, v, rfl⟩ | ⟨-, -, rfl⟩ | ⟨-, b, q, o, -, -, rfl⟩ | ⟨-, bs, q, n, o, -, -, rfl⟩ | ⟨hph, r, d, -, rfl⟩ |
    ⟨hph, r, d, -, rfl⟩ | ⟨hph, -, rfl⟩ | ⟨-, e, -, rfl⟩ | ⟨hph, -, rfl⟩ | ⟨-, e, -, rfl⟩ | ⟨a, -, ha⟩ |
    ⟨-, -, rfl⟩ := exec_cases h
  · exact phaseMove_of_stay rfl
  · exact phaseMove_of_stay rfl
  · exact phaseMove_of_stay rfl
  · exact phaseMove_of_stay rfl
  · exact .inr (.inr (.inl ⟨hph, rfl⟩))
  · exact .inr (.inr (.inl ⟨hph, rfl⟩))
  · exact .inr (.inr (.inr (.inl ⟨hph, rfl⟩)))
  · exact phaseMove_of_end rfl
  · exact .inr (.inr (.inr (.inr (.inl ⟨hph, rfl⟩))))
  · exact phaseMove_of_end rfl
  · exact execReadExact_phaseMove ha
  · exact phaseMove_of_end rfl

/-- Settles O49, by the three things a step can do. -/
theorem phaseMoves : Obligations.PhaseMoves := by
  intro s t h
  obtain ⟨e, rest, -, ⟨i, hexec, -⟩ | ⟨-, a, -, rfl⟩ | ⟨-, rfl⟩⟩ := step_cases h
  · exact exec_phaseMove (s := takeEvent rest s) hexec
  · exact phaseMove_of_stay rfl
  · exact phaseMove_of_end rfl

/-- An answer to `RxRead` leaves the parameters and `SLAVE_ADDR` (R36, R46). -/
theorem execReadExact_config {a : RxAnswer} (h : execReadExact a s = .next t) : t.par = s.par ∧ t.slave = s.slave := by
  obtain ⟨-, ⟨e, -, rfl⟩ | ⟨-, rfl⟩ | ⟨bs, -, -, -, ⟨-, rfl⟩ | ⟨-, -, rfl⟩ | ⟨-, -, q, n, o, -, rfl⟩⟩⟩ :=
    readExact_cases h
  any_goals exact ⟨rfl, rfl⟩
  obtain ⟨-, heq⟩ | ⟨-, heq⟩ := echoComplete_cases (collect bs s) <;> rw [heq] <;> exact ⟨rfl, rfl⟩

/-- Every operation leaves the parameters and `SLAVE_ADDR` (R36, R46). -/
theorem exec_config {i : Instr} (h : exec i s = .next t) : t.par = s.par ∧ t.slave = s.slave := by
  obtain ⟨-, v, rfl⟩ | ⟨-, -, rfl⟩ | ⟨-, b, q, o, -, -, rfl⟩ | ⟨-, bs, q, n, o, -, -, rfl⟩ | ⟨-, r, d, -, rfl⟩ |
    ⟨-, r, d, -, rfl⟩ | ⟨-, -, rfl⟩ | ⟨-, e, -, rfl⟩ | ⟨-, -, rfl⟩ | ⟨-, e, -, rfl⟩ | ⟨a, -, ha⟩ |
    ⟨-, -, rfl⟩ := exec_cases h
  any_goals exact ⟨rfl, rfl⟩
  exact execReadExact_config ha

/-- Settles O50: operations and the block reset leave both, and `cfg` writes its value in `IDLE`. -/
theorem parametersNeverWritten : Obligations.ParametersNeverWritten := by
  intro s t h
  obtain ⟨e, rest, hinputs, ⟨i, hexec, -⟩ | ⟨hph, a, rfl, rfl⟩ | ⟨-, rfl⟩⟩ := step_cases h
  · obtain ⟨hpar, hslave⟩ := exec_config hexec
    exact ⟨hpar, fun hne => absurd hslave hne⟩
  · exact ⟨rfl, fun _ => ⟨hph, a, rest, hinputs, rfl⟩⟩
  · exact ⟨rfl, fun hne => absurd rfl hne⟩

/-! ### The outstanding call -/

theorem outstanding_eq_none : outstanding s = none ↔ s.ph = .idle := by
  unfold outstanding
  cases s.ph <;> simp

theorem outstanding_eq_txWrite {bs : List Byte} :
    outstanding s = some (.txWrite bs) ↔ s.ph = .wr ∧ bs = s.txb.toList.take s.txn.val := by
  unfold outstanding
  cases s.ph <;> simp [eq_comm]

theorem outstanding_eq_txFlush : outstanding s = some .txFlush ↔ s.ph = .fl := by
  unfold outstanding
  cases s.ph <;> simp

theorem outstanding_eq_rxRead {cap : Nat} :
    outstanding s = some (.rxRead cap) ↔ (s.ph = .echo ∨ s.ph = .reply) ∧ cap = room s := by
  unfold outstanding
  cases s.ph <;> simp [eq_comm]

/-- The bytes of `TXB` up to `TXN` are the latched request, whole (R31, R185). -/
theorem take_txb_of_latched (h : RequestLatched s) :
    (s.opr = .read ∧ s.txb.toList.take s.txn.val = encodeRead s.par (zextSlave s.slave) s.exp) ∨
    (s.opr = .write ∧ ∃ d, s.txb.toList.take s.txn.val = encodeWrite s.par (zextSlave s.slave) s.exp d) := by
  obtain ⟨-, htxn, hbytes⟩ := h
  cases hopr : s.opr with
  | read =>
    simp only [hopr] at htxn hbytes
    exact .inl ⟨rfl, by rw [htxn]; exact hbytes⟩
  | write =>
    simp only [hopr] at htxn hbytes
    refine .inr ⟨rfl, unbe32 s.txb.b3 s.txb.b4 s.txb.b5 s.txb.b6, ?_⟩
    rw [htxn, ← hbytes]
    exact List.take_of_length_le (Nat.le_refl 8)

/-- While bytes are read, some are still wanted (R32, R190). -/
theorem got_lt_need (hi : s.Inv) (hph : s.ph = .echo ∨ s.ph = .reply) : s.got.val < s.need.val := by
  rcases hph with hph | hph
  · exact Fin.lt_def.1 (hi.echo hph).2
  · obtain ⟨-, hneed, hgot⟩ := hi.reply hph
    rw [hneed]
    exact Fin.lt_def.1 hgot

/-- Settles O51, by the call of each phase, the latched request and the counts. -/
theorem outstandingCalls : Obligations.OutstandingCalls := by
  intro s hi
  refine ⟨outstanding_eq_none.symm, fun bs h => ?_, outstanding_eq_txFlush.1, fun cap h => ?_⟩
  · obtain ⟨hph, rfl⟩ := outstanding_eq_txWrite.1 h
    obtain ⟨-, -, hlatched⟩ := hi.busy (by simp [hph])
    refine ⟨hph, ?_⟩
    rw [← zextSlave_eq]
    obtain ⟨hopr, hbytes⟩ | ⟨hopr, d, hbytes⟩ := take_txb_of_latched hlatched
    · exact .inl ⟨hopr, by rw [hbytes, encodeRead_length], hbytes⟩
    · exact .inr ⟨hopr, by rw [hbytes, encodeWrite_length], d, hbytes⟩
  · obtain ⟨hph, rfl⟩ := outstanding_eq_rxRead.1 h
    have hlt := got_lt_need hi hph
    have hneed := s.need.isLt
    simp only [room]
    exact ⟨hph, by omega, by omega, by omega⟩

end Sys2Proof.Machine
end

section
/-! PROOFS. The result word (10_state.md R42; 60_exceptions.md R226). -/

namespace Sys2Proof.Machine

/-- The four fields of a result word, each at its bits (R42). -/
def WordFields (w : BitVec 52) (code : BitVec 4) (expected actual : Byte) (data : Word) : Prop :=
  w.extractLsb' 0 32 = data ∧ w.extractLsb' 32 8 = actual ∧ w.extractLsb' 40 8 = expected ∧ w.extractLsb' 48 4 = code

/-- A word put together from its fields has them. -/
theorem wordFields_append (code : BitVec 4) (expected actual : Byte) (data : Word) :
    WordFields (code ++ expected ++ actual ++ data) code expected actual data := by
  refine ⟨?_, ?_, ?_, ?_⟩
  · rw [BitVec.extractLsb'_append_eq_of_add_le (by decide), BitVec.extractLsb'_eq_self]
  · rw [BitVec.extractLsb'_append_eq_of_le (by decide), BitVec.extractLsb'_append_eq_of_add_le (by decide),
      BitVec.extractLsb'_eq_self]
  · rw [BitVec.extractLsb'_append_eq_of_le (by decide), BitVec.extractLsb'_append_eq_of_le (by decide),
      BitVec.extractLsb'_append_eq_of_add_le (by decide), BitVec.extractLsb'_eq_self]
  · rw [BitVec.extractLsb'_append_eq_of_le (by decide), BitVec.extractLsb'_append_eq_of_le (by decide),
      BitVec.extractLsb'_append_eq_of_le (by decide), BitVec.extractLsb'_eq_self]

/-- Settles O54: every result's word is put together from its fields. -/
theorem resultWordFields : Obligations.ResultWordFields := by
  intro r
  match r with
  | .okRead data => exact wordFields_append 0#4 0#8 0#8 data
  | .okWrite => exact wordFields_append 0#4 0#8 0#8 0#32
  | .err (.addressMismatch expected actual) => exact wordFields_append 7#4 expected actual 0#32
  | .err (.transportFailure e) => exact wordFields_append 1#4 0#8 0#8 0#32
  | .err .noResponse => exact wordFields_append 2#4 0#8 0#8 0#32
  | .err .invalidSync => exact wordFields_append 3#4 0#8 0#8 0#32
  | .err .invalidSourceAddress => exact wordFields_append 4#4 0#8 0#8 0#32
  | .err .checksumMismatch => exact wordFields_append 5#4 0#8 0#8 0#32
  | .err .shortBuffer => exact wordFields_append 6#4 0#8 0#8 0#32
  | .err (.unknownAddress raw) => exact wordFields_append 8#4 0#8 0#8 0#32

/-- The codes of the errors a transaction can end with (R226). -/
theorem code_of_endsTxn {x : Error} (h : x.endsTxn = true) :
    x.code = 1#4 ∨ x.code = 2#4 ∨ x.code = 5#4 ∨ x.code = 7#4 := by
  cases x with
  | transportFailure e => exact .inl rfl
  | noResponse => exact .inr (.inl rfl)
  | checksumMismatch => exact .inr (.inr (.inl rfl))
  | addressMismatch expected actual => exact .inr (.inr (.inr rfl))
  | invalidSync | invalidSourceAddress | shortBuffer | unknownAddress => cases h

/-- Settles O53: the code field of the word is that of the result, whose kind the invariant fixes. -/
theorem resultCodes : Obligations.ResultCodes := by
  intro s w hi hw
  obtain ⟨r, hres, rfl⟩ := Option.map_eq_some_iff.1 hw
  obtain ⟨-, -, -, hcode⟩ := resultWordFields r
  rw [hcode]
  cases r with
  | okRead data => exact .inl rfl
  | okWrite => exact .inl rfl
  | err x => exact .inr (code_of_endsTxn (hi.result x hres))

end Sys2Proof.Machine
end

section
/-! PROOFS. The registers after reset (10_state.md R47), and the step of each event that is no operation (00_scope.md
R8; 10_state.md R20, R22, R41). -/

namespace Sys2Proof.Machine

variable {s : State} {rest : List Event}

/-- Settles O1: `State.reset` is written with these values. -/
theorem resetRegisters : Obligations.ResetRegisters := ⟨rfl, rfl, rfl, rfl, rfl⟩

/-- Bytes that decode, at the head of the queue, are executed as what they decode to (R107). -/
theorem step_word {bs : List Byte} {i : Instr} (hhead : s.inputs = .word bs :: rest) (hd : decode s.par bs = .ok i) :
    step s = exec i (takeEvent rest s) := by
  simp only [step, takeAndRun, hhead, runEvent, takeEvent_par, hd]

/-- Bytes that do not decode are refused by the decoder's name. -/
theorem step_word_undecodable {bs : List Byte} {d : DecodeError} (hhead : s.inputs = .word bs :: rest)
    (hd : decode s.par bs = .error d) : step s = .refused (.undecodable d) := by
  simp only [step, takeAndRun, hhead, runEvent, takeEvent_par, hd]

/-- Settles O4: `step_word` and `step_word_undecodable`, the table row's word being at the head of the queue. -/
theorem stepRunsDecodedWord : Obligations.StepRunsDecodedWord := by
  refine ⟨fun s bs i rest => step_word, fun s bs d rest => step_word_undecodable, fun s nbits w i hd => ?_⟩
  exact step_word (s := s.withFetchWord nbits w) (rest := s.inputs) rfl hd

/-- Settles O5, by the phases. -/
theorem configOnlyInIdle : Obligations.ConfigOnlyInIdle := by
  intro s a rest hhead
  have hstep : step s = configure a (takeEvent rest s) := by simp only [step, takeAndRun, hhead, runEvent]
  rw [hstep]
  cases hph : s.ph with
  | idle =>
    refine ⟨fun _ => ?_, fun h => absurd rfl h⟩
    simp only [configure, hph, withSlave, takeEvent]
  | wr | fl | echo | reply =>
    refine ⟨nofun, fun _ => ?_⟩
    simp only [configure, takeEvent_ph, hph]

/-- Settles O7: a step to a next state took an event off the queue. -/
theorem noStepOfItsOwn : Obligations.NoStepOfItsOwn := by
  rintro s ⟨t, h⟩ hempty
  obtain ⟨e, rest, hinputs, -⟩ := step_cases h
  simp [hempty] at hinputs

end Sys2Proof.Machine
end

section
/-! PROOFS. The bit patterns (30_encoding.md R90 to R94, R99; 10_state.md R41): what the decoder reads from each length
of bytes, and that it and the encoder are inverse on the images it can tell. -/

namespace Sys2Proof

variable {P : Params} {i : Instr}

/-- A read request's four bytes decode to its fields (R91). -/
theorem decode_readImage (P : Params) (sync slave : Byte) (reg : BitVec 7) (ck : Byte) :
    decode P (readHead sync slave reg ++ [ck]) = .ok (.reqRead sync slave reg ck) := by
  have hmsb : (zextReg reg).msb = false := by rw [← maskReg_zextReg, maskReg_msb]
  have hreg : (zextReg reg).setWidth 7 = reg := BitVec.setWidth_setWidth_of_le reg (by decide)
  simp [readHead, decode, decodeFour, hmsb, hreg]

/-- A write request's eight bytes decode to its fields, unless its slave byte is the sentinel (R92, R99). -/
theorem decode_writeImage {slave : Byte} (hslave : slave ≠ P.sentinel) (sync : Byte) (reg : BitVec 7) (data : Word)
    (ck : Byte) : decode P (writeHead sync slave reg data ++ [ck]) = .ok (.reqWrite sync slave reg data ck) := by
  simp [writeHead, be32, decode, decodeEight, hslave]

/-- A response image is told exactly when it does not look like a write request (R99). -/
theorem told_respRead {sync source reg : Byte} {data : Word} {ck : Byte} :
    (Instr.respRead sync source reg data ck).told P = true ↔ ¬ (source ≠ P.sentinel ∧ reg.msb = true) := by
  simp [Instr.told, imp_iff_not_or]

/-- A response's eight bytes decode to its fields, when it is told (R93, R99). -/
theorem decode_respImage {sync source reg : Byte} {data : Word} {ck : Byte}
    (htold : (Instr.respRead sync source reg data ck).told P = true) :
    decode P (respHead sync source reg data ++ [ck]) = .ok (.respRead sync source reg data ck) := by
  simp [respHead, be32, decode, decodeEight, if_neg (told_respRead.1 htold)]

/-- Settles O8, by the rows of the table: a command word is told by its first byte, and a row without a bit pattern has
no bytes to decode. -/
theorem decodeOfEncode : Obligations.DecodeOfEncode := by
  intro P i bs htold hbs
  cases i with
  | reqRead sync slave reg ck =>
    obtain rfl := Option.some.inj hbs
    exact decode_readImage P sync slave reg ck
  | reqWrite sync slave reg data ck =>
    obtain rfl := Option.some.inj hbs
    exact decode_writeImage (bne_iff_ne.1 htold) sync reg data ck
  | respRead sync source reg data ck =>
    obtain rfl := Option.some.inj hbs
    exact decode_respImage htold
  | readTxn reg ignored | writeTxn reg data =>
    obtain rfl := Option.some.inj hbs
    simp [be32, decode, decodeCommand]
  | encodeRead | encodeWrite | decodeResp | decodeRespSlice | reqwFields | classifyAddr | parserReset | parseByte | feed
  | writeAll | flush | readExact | cancel => cases hbs

/-- Four bytes are the encoding of what they decode to: bit 7 of byte 2 is clear (R91). -/
theorem encode_of_decodeFour {b0 b1 b2 b3 : Byte} (h : decodeFour b0 b1 b2 b3 = .ok i) :
    encode i = some [b0, b1, b2, b3] ∧ i.told P = true := by
  rw [decodeFour] at h
  split_ifs at h with hflag
  obtain rfl := Except.ok.inj h
  exact ⟨by simp [encode, readHead, zextReg_setWidth b2 (Bool.eq_false_iff.2 hflag)], rfl⟩

/-- Six bytes are the encoding of what they decode to: the first is the operation alone (R41). -/
theorem encode_of_decodeCommand {b0 b1 b2 b3 b4 b5 : Byte} (h : decodeCommand b0 b1 b2 b3 b4 b5 = .ok i) :
    encode i = some [b0, b1, b2, b3, b4, b5] ∧ i.told P = true := by
  rw [decodeCommand] at h
  split_ifs at h with hread hwrite
  · obtain rfl := Except.ok.inj h
    exact ⟨by simp [encode, be32_unbe32, hread], rfl⟩
  · obtain rfl := Except.ok.inj h
    exact ⟨by simp [encode, be32_unbe32, hwrite], rfl⟩

/-- Eight bytes are the encoding of what they decode to, a write request when byte 1 is not the sentinel and byte 2 has
the flag, else a response (R92, R93, R99). -/
theorem encode_decodeEight (P : Params) (b : Bytes8) :
    encode (decodeEight P b) = some b.toList ∧ (decodeEight P b).told P = true := by
  by_cases hw : b.b1 ≠ P.sentinel ∧ b.b2.msb = true
  · rw [decodeEight, if_pos hw]
    obtain ⟨hslave, hflag⟩ := hw
    exact ⟨by simp [encode, writeHead, be32_unbe32, flagReg_zextReg_setWidth b.b2 hflag, Bytes8.toList],
      bne_iff_ne.2 hslave⟩
  · rw [decodeEight, if_neg hw]
    exact ⟨by simp [encode, respHead, be32_unbe32, Bytes8.toList], told_respRead.2 hw⟩

/-- Settles O9, by the decoder's three lengths. -/
theorem encodeOfDecode : Obligations.EncodeOfDecode := by
  intro P bs i h
  unfold decode at h
  split at h
  · obtain ⟨hbs, htold⟩ := encode_of_decodeFour h
    exact ⟨hbs, htold, .inl rfl⟩
  · obtain ⟨hbs, htold⟩ := encode_of_decodeCommand h
    exact ⟨hbs, htold, .inr (.inl rfl)⟩
  · obtain rfl := Except.ok.inj h
    obtain ⟨hbs, htold⟩ := encode_decodeEight P _
    exact ⟨hbs, htold, .inr (.inr rfl)⟩
  · cases h

/-- A table row's word stands for the instruction whose encoding its bytes are. -/
theorem decodeTableWord_of_encode {nbits w : Nat} (htold : i.told Params.default = true)
    (hbs : encode i = some (tableBytes nbits w)) : decodeTableWord nbits w = some i := by
  rw [decodeTableWord, decodeOfEncode Params.default i _ htold hbs]

/-- Settles O11: each word's bytes are the encoding of the instruction named. -/
theorem writtenWordsDecode : Obligations.WrittenWordsDecode :=
  ⟨decodeTableWord_of_encode rfl (by decide), decodeTableWord_of_encode (by decide) (by decide),
    decodeTableWord_of_encode (by decide) (by decide), decodeTableWord_of_encode rfl (by decide),
    decodeTableWord_of_encode rfl (by decide)⟩

end Sys2Proof
end

section
/-! PROOFS. The datagram images as operations (30_encoding.md R91 to R93, R101, R107; log 11): a request image is the
request of its fields, a response image is decoded. -/

namespace Sys2Proof.Machine

/-- `zext_8` of a register address puts a zero on top. -/
theorem zextReg_eq_append (reg : BitVec 7) : zextReg reg = (0#1 ++ reg : BitVec 8) :=
  BitVec.setWidth_eq_append (by decide)

/-- The read request of a seven-bit address is the layout of R91 with its checksum. -/
theorem encodeRead_zextReg (P : Params) (slave : Byte) (reg : BitVec 7) :
    encodeRead P slave (zextReg reg) = readHead P.sync slave reg ++ [P.ck (readHead P.sync slave reg)] := by
  rw [encodeRead, maskReg_zextReg, readHead]

/-- The write request of a seven-bit address is the layout of R92 with its checksum. -/
theorem encodeWrite_zextReg (P : Params) (slave : Byte) (reg : BitVec 7) (data : Word) :
    encodeWrite P slave (zextReg reg) data =
      writeHead P.sync slave reg data ++ [P.ck (writeHead P.sync slave reg data)] := rfl

variable (sync slave source addr : Byte) (reg : BitVec 7) (data : Word) (ck : Byte) (s : State)

/-- `REQ_READ` constructs the request of its fields (R121). -/
theorem exec_reqRead : exec (.reqRead sync slave reg ck) s =
    .next (giveBack (.request (encodeRead s.par slave (zextReg reg))) s) := rfl

/-- `REQ_WRITE` constructs the request of its fields (R124). -/
theorem exec_reqWrite : exec (.reqWrite sync slave reg data ck) s =
    .next (giveBack (.request (encodeWrite s.par slave (zextReg reg) data)) s) := rfl

/-- `RESP_READ` decodes the image's bytes (R128). -/
theorem exec_respRead : exec (.respRead sync source addr data ck) s =
    .next (giveBack (.response (decodeResponse s.par (respImage sync source addr data ck))) s) := rfl

variable {sync source addr data ck}

/-- When a response image decodes, and to what (R101). -/
theorem decodeResponse_respImage_eq_ok {P : Params} {resp : Response} :
    decodeResponse P (respImage sync source addr data ck) = .ok resp ↔
      sync = P.sync ∧ source = P.sentinel ∧ ck = P.ck (respHead sync source addr data) ∧ resp = ⟨addr, data⟩ := by
  simp [decodeResponse_eq_ok, respImage, respHead, be32, eq_comm (b := ck)]

/-- The slice decoder on an image's bytes is the decoder on the image (R131). -/
theorem decodeSlice_respImage (P : Params) : decodeSlice P (respHead sync source addr data ++ [ck]) =
    decodeResponse P (respImage sync source addr data ck) := rfl

/-- Settles O14: the image's address is the operand with a zero on top. -/
theorem requestImagesConstruct : Obligations.RequestImagesConstruct := by
  intro s sync slave reg data ck
  rw [← zextReg_eq_append]
  exact ⟨rfl, rfl, ⟨_, exec_reqRead ..⟩, ⟨_, exec_reqWrite ..⟩⟩

/-- Settles O18: the result is that of the decoder on the image. -/
theorem responseImagesDecode : Obligations.ResponseImagesDecode := by
  intro s sync source reg data ck
  refine ⟨_, exec_respRead .., fun resp => decodeResponse_respImage_eq_ok, ?_⟩
  intro b hb
  obtain rfl := Option.some.inj hb
  exact (decodeSlice_respImage s.par).symm

/-- Settles O10: the constants and the checksum of a well-formed image are those the encoder puts in and the decoder
asks for. -/
theorem genuineImagesStand : Obligations.GenuineImagesStand := by
  intro s sync slave source reg addr data ck
  refine ⟨fun bs hwf hbs => ?_, fun bs hwf hbs => ?_, fun hwf => ?_⟩
  · obtain rfl := Option.some.inj hbs
    obtain ⟨rfl, rfl⟩ : sync = s.par.sync ∧ ck = s.par.ck (readHead sync slave reg) := by simpa [Instr.wf] using hwf
    rw [exec_reqRead, encodeRead_zextReg, giveBack]
  · obtain rfl := Option.some.inj hbs
    obtain ⟨⟨rfl, -⟩, rfl⟩ : (sync = s.par.sync ∧ slave ≠ s.par.sentinel) ∧
      ck = s.par.ck (writeHead sync slave reg data) := by simpa [Instr.wf] using hwf
    rw [exec_reqWrite, encodeWrite_zextReg, giveBack]
  · obtain ⟨⟨hsync, hsource⟩, hck⟩ : (sync = s.par.sync ∧ source = s.par.sentinel) ∧
      ck = s.par.ck (respHead sync source addr data) := by simpa [Instr.wf] using hwf
    rw [exec_respRead, decodeResponse_respImage_eq_ok.2 ⟨hsync, hsource, hck, rfl⟩, giveBack]

end Sys2Proof.Machine
end

section
/-! PROOFS. The laws of the codec's functions that the claims turn on: the request encoders (40_codec.md R121 to R126),
the order of the decoder's tests (R128), the length test of the slice decoder (R131), and the constraints on the table of
known addresses (20_memory.md R75). -/

namespace Sys2Proof.Machine

variable (P : Params) (slave reg : Byte) (data : Word)

/-- The checksum of a read request verifies (R12, R123). -/
theorem verify_encodeRead : P.verify (encodeRead P slave reg) = true := by
  rw [encodeRead, P.verify_concat, beq_self_eq_true]

/-- The checksum of a write request verifies (R12, R126). -/
theorem verify_encodeWrite : P.verify (encodeWrite P slave reg data) = true := by
  rw [encodeWrite, P.verify_concat, beq_self_eq_true]

/-- Settles O15: byte 2 is the masked or the flagged address, and the four data bytes are those of `be32`. -/
theorem encodersVerify : Obligations.EncodersVerify := by
  intro P slave reg data
  constructor
  · exact ⟨encodeRead_length .., rfl, ⟨_, rfl, maskReg_msb reg⟩, verify_encodeRead ..⟩
  · exact ⟨encodeWrite_length .., rfl, ⟨_, rfl, flagReg_msb reg⟩, verify_encodeWrite ..,
      _, _, _, _, rfl, rfl, rfl, rfl, unbe32_be32 data⟩

/-- The mask depends on the low seven bits only (R70). -/
theorem maskReg_congr {reg reg' : Byte} (h : reg.setWidth 7 = reg'.setWidth 7) : maskReg reg = maskReg reg' := by
  rw [maskReg_eq_zextReg, h, ← maskReg_eq_zextReg]

/-- Settles O16: a request is that of the masked address. -/
theorem addressBitSevenDropped : Obligations.AddressBitSevenDropped := by
  intro P slave reg reg' data h
  constructor
  · rw [← encodeRead_maskReg P slave reg, maskReg_congr h, encodeRead_maskReg]
  · rw [← encodeWrite_maskReg P slave reg, maskReg_congr h, encodeWrite_maskReg]

variable {P} {b : Bytes8}

/-- The tests of `DECODE_RESP` in their order, the last as a comparison of the eighth byte (R12, R128). -/
theorem decodeResponse_eq_ite (P : Params) (b : Bytes8) :
    decodeResponse P b =
      if b.b0 ≠ P.sync then .err .invalidSync
      else if b.b1 ≠ P.sentinel then .err .invalidSourceAddress
      else if P.ck [b.b0, b.b1, b.b2, b.b3, b.b4, b.b5, b.b6] ≠ b.b7 then .err .checksumMismatch
      else .ok ⟨b.b2, unbe32 b.b3 b.b4 b.b5 b.b6⟩ := by
  simp only [decodeResponse, verify_toList, beq_eq_false_iff_ne]

/-- Fewer than eight bytes are too short, whatever they are (R131). -/
theorem decodeSlice_of_length_lt {bs : List Byte} (h : bs.length < 8) : decodeSlice P bs = .err .shortBuffer := by
  rw [decodeSlice, firstEight_eq_none.2 h]

/-- What follows the first eight bytes is not looked at (R132). -/
theorem decodeSlice_toList_append (tail : List Byte) : decodeSlice P (b.toList ++ tail) = decodeResponse P b := by
  rw [decodeSlice, firstEight_toList]

/-- The known set ends at 0x72 (R75). -/
theorem addrTable_eq_none_of_tableOk {raw : Byte} (hok : P.tableOk = true) (hraw : 0x72 < raw.toNat) :
    P.addrTable raw = none := by
  obtain ⟨hrange, -⟩ := Bool.and_eq_true_iff.1 hok
  rw [Params.addrTable, List.lookup_eq_none_iff]
  intro row hrow
  have hle : row.1.toNat ≤ 0x72 := of_decide_eq_true (List.all_eq_true.1 hrange row hrow)
  rw [bne_iff_ne]
  rintro rfl
  omega

/-- 0x6F is in the known set (R75). -/
theorem addrTable_of_tableOk (hok : P.tableOk = true) : ∃ a, P.addrTable 0x6F#8 = some a :=
  Option.isSome_iff_exists.1 (Bool.and_eq_true_iff.1 hok).2

end Sys2Proof.Machine
end

section
/-! PROOFS. The codec's operations (40_codec.md R120 to R135): each hands back what its function gives and writes no
register. -/

namespace Sys2Proof.Machine

variable (slave reg raw : Byte) (data : Word) (b : Bytes8) (bs : List Byte) (s : State)

/-- `ENCODE_READ` hands back the read request (R121). -/
theorem exec_encodeRead : exec (.encodeRead slave reg) s =
    .next (giveBack (.request (encodeRead s.par slave reg)) s) := rfl

/-- `ENCODE_WRITE` hands back the write request (R124). -/
theorem exec_encodeWrite : exec (.encodeWrite slave reg data) s =
    .next (giveBack (.request (encodeWrite s.par slave reg data)) s) := rfl

/-- `DECODE_RESP` hands back the decoder's answer for eight bytes (R128). -/
theorem exec_decodeResp : exec (.decodeResp b) s = .next (giveBack (.response (decodeResponse s.par b)) s) := rfl

/-- `DECODE_RESP_SLICE` hands back the decoder's answer for a slice (R131). -/
theorem exec_decodeRespSlice : exec (.decodeRespSlice bs) s =
    .next (giveBack (.response (decodeSlice s.par bs)) s) := rfl

/-- `REQW_FIELDS` hands back bytes 1 to 6, read as three fields (R133). -/
theorem exec_reqwFields : exec (.reqwFields b) s =
    .next (giveBack (.fields b.b1 (maskReg b.b2) (unbe32 b.b3 b.b4 b.b5 b.b6)) s) := rfl

/-- `CLASSIFY_ADDR` hands back the row of the raw byte (R135). -/
theorem exec_classifyAddr : exec (.classifyAddr raw) s = .next (giveBack (.access (classify s.par raw)) s) := rfl

/-- Settles O24: each of these operations gives a value back. -/
theorem codecTouchesNoRegister : Obligations.CodecTouchesNoRegister := by
  intro i s hi
  obtain ⟨v, hs, -⟩ := exec_handsBackOnly hi (rfl : s.par = s.par)
  exact ⟨v, hs⟩

/-- Settles O12: the mask is written out. -/
theorem encodeReadBytes : Obligations.EncodeReadBytes := by
  intro s slave reg
  rw [exec_encodeRead, encodeRead, maskReg, giveBack]
  rfl

/-- Settles O13: the flag and the byte order are written out. -/
theorem encodeWriteBytes : Obligations.EncodeWriteBytes := by
  intro s slave reg data
  rw [exec_encodeWrite, encodeWrite, flagReg, maskReg, be32, giveBack]
  rfl

/-- Settles O17, by the order of the decoder's tests. -/
theorem decodeRespOrder : Obligations.DecodeRespOrder := by
  intro s b
  rw [exec_decodeResp, decodeResponse_eq_ite, giveBack]

/-- Settles O19, by the length of the slice. -/
theorem sliceTakesFirstEight : Obligations.SliceTakesFirstEight := by
  intro s bs
  constructor
  · intro hshort
    rw [exec_decodeRespSlice, decodeSlice_of_length_lt hshort, giveBack]
  · rintro b tail rfl
    rw [exec_decodeRespSlice, decodeSlice_toList_append, exec_decodeResp]
    exact ⟨rfl, _, rfl⟩

/-- Settles O20: the payload is its four bytes side by side. -/
theorem requestFieldsRead : Obligations.RequestFieldsRead := by
  intro s b
  rw [exec_reqwFields, unbe32_eq_append, maskReg, giveBack]

/-- Settles O21: the request is a file whose byte 2 is the flagged address and whose data bytes are those of `be32`. -/
theorem requestRoundTrip : Obligations.RequestRoundTrip := by
  intro s slave reg data
  refine ⟨⟨_, _, _, _, _, _, _, _⟩, rfl, rfl, flagReg_msb reg, ?_⟩
  rw [exec_reqwFields, maskReg_flagReg, unbe32_be32, maskReg, giveBack]

/-- Settles O22, by the row of the table. -/
theorem classifyLooksUp : Obligations.ClassifyLooksUp := by
  intro s raw
  refine ⟨fun hnone => ?_, fun a hsome => ?_, fun hok => ⟨addrTable_eq_none_of_tableOk hok, ?_⟩⟩
  · rw [exec_classifyAddr, classify, hnone, giveBack]
  · rw [exec_classifyAddr, classify, hsome, giveBack]
  · rintro rfl
    exact addrTable_of_tableOk hok

end Sys2Proof.Machine
end

section
/-! PROOFS. One flipped bit in the covered bytes of a valid response (40_codec.md R130): the byte it is in no longer
passes its test, or the checksum of the seven bytes is no longer the eighth byte (00_scope.md R13). -/

namespace Sys2Proof.Machine

variable {P : Params} {b : Bytes8} {resp : Response} {i k : Nat}

/-- A flipped bit changes its byte. -/
theorem xor_bit_ne (x : Byte) (hk : k < 8) : x ^^^ (1#8 <<< k) ≠ x := by
  have hbit : ∀ k < 8, (1#8 : Byte) <<< k ≠ 0 := by decide
  exact fun h => hbit k hk (xor_left_eq_self_iff.1 h)

/-- Flipping a bit of register `i` is flipping it at index `i` of the list of registers. -/
theorem toList_flipBit (b : Bytes8) (i k : Nat) :
    (flipBit b i k).toList = b.toList.modify i (· ^^^ (1#8 <<< k)) := by
  rw [flipBit, Bytes8.toList_set, List.modify_eq_set, List.getD_eq_getElem?_getD]
  rfl

/-- A flip behind the first two registers leaves both. -/
theorem flipBit_add_two (b : Bytes8) (i k : Nat) :
    (flipBit b (i + 2) k).b0 = b.b0 ∧ (flipBit b (i + 2) k).b1 = b.b1 := by
  have h := toList_flipBit b (i + 2) k
  simp only [Bytes8.toList, List.modify_succ_cons, List.cons.injEq] at h
  obtain ⟨h0, h1, -⟩ := h
  exact ⟨h0, h1⟩

/-- A flip in the first seven registers leaves the eighth. -/
theorem flipBit_b7 (hi : i < 7) : (flipBit b i k).b7 = b.b7 := by
  have h : (flipBit b i k).toList[7]? = b.toList[7]? := by
    rw [toList_flipBit, List.getElem?_modify_ne _ _ (by omega)]
  exact Option.some.inj h

/-- A flip in the seven covered bytes changes their checksum (R13). -/
theorem ck_flipBit_ne (hck : P.CkSingleBit) (hi : i < 7) (hk : k < 8) :
    P.ck ((flipBit b i k).toList.take 7) ≠ P.ck (b.toList.take 7) := by
  rw [toList_flipBit, List.take_modify]
  exact hck (b.toList.take 7) rfl i hi k hk

/-- A flip in byte 0 of a valid response makes it another byte than the sync byte. -/
theorem decodeResponse_flipBit_zero (hd : decodeResponse P b = .ok resp) (hk : k < 8) :
    decodeResponse P (flipBit b 0 k) = .err .invalidSync := by
  obtain ⟨h0, -, -, -⟩ := decodeResponse_eq_ok.1 hd
  exact if_pos (h0 ▸ xor_bit_ne b.b0 hk)

/-- A flip in byte 1 of a valid response makes it another byte than the sentinel. -/
theorem decodeResponse_flipBit_one (hd : decodeResponse P b = .ok resp) (hk : k < 8) :
    decodeResponse P (flipBit b 1 k) = .err .invalidSourceAddress := by
  obtain ⟨h0, h1, -, -⟩ := decodeResponse_eq_ok.1 hd
  exact (if_neg (not_not.2 h0)).trans (if_pos (h1 ▸ xor_bit_ne b.b1 hk))

/-- A flip in bytes 2 to 6 of a valid response passes the first two tests and fails the third. -/
theorem decodeResponse_flipBit_add_two (hck : P.CkSingleBit) (hd : decodeResponse P b = .ok resp) (hi : i + 2 < 7)
    (hk : k < 8) : decodeResponse P (flipBit b (i + 2) k) = .err .checksumMismatch := by
  obtain ⟨h0, h1, hsum, -⟩ := decodeResponse_eq_ok.1 hd
  obtain ⟨hb0, hb1⟩ := flipBit_add_two b i k
  rw [decodeResponse_framed (hb0.trans h0) (hb1.trans h1), flipBit_b7 hi, ← hsum]
  exact if_neg (ck_flipBit_ne hck hi hk)

/-- Settles O23, by the byte the flipped bit is in: byte 0, byte 1, or bytes 2 to 6. -/
theorem checksumSensitivity : Obligations.ChecksumSensitivity := by
  intro s b resp i k hck hd hi hk
  rw [exec_decodeResp, giveBack]
  match i with
  | 0 => rw [decodeResponse_flipBit_zero hd hk]; rfl
  | 1 => rw [decodeResponse_flipBit_one hd hk]; rfl
  | i + 2 => rw [decodeResponse_flipBit_add_two hck hd hi hk]; rfl

end Sys2Proof.Machine
end

section
/-! PROOFS. One byte of the parser (41_parser.md R151 to R156): what the byte step does at each cursor, and what the
parser's operations do in `IDLE`. -/

namespace Sys2Proof.Machine

variable {P : Params} {q : Parser} {b : Byte} {s t : State}

/-- A sync byte is seen as one: the cursor is at 0, or at 1 where no sentinel can be meant (R153, R154). -/
def SeesSync (P : Params) (q : Parser) : Prop := q.cur = 0 ∨ q.cur = 1 ∧ P.sync ≠ P.sentinel

/-- A sync byte that is seen as one is stored, and the cursor is 1 (R153, R154). -/
theorem parseByte_sync (h : SeesSync P q) : parseByte P P.sync q = some (⟨1, q.acc.set 0 P.sync⟩, .noResultYet) := by
  obtain h0 | ⟨h1, hne⟩ := h
  · simp [parseByte, seekSync, h0]
  · simp [parseByte, seekSource, seekSync, h1, hne]

/-- A byte that is neither looked for nor the sync byte sends the cursor to 0 (R153, R154). -/
theorem parseByte_neither (h : q.cur = 0 ∨ q.cur = 1 ∧ b ≠ P.sentinel) (hb : b ≠ P.sync) :
    parseByte P b q = some (⟨0, q.acc⟩, .noResultYet) := by
  obtain h0 | ⟨h1, hne⟩ := h
  · simp [parseByte, seekSync, h0, hb]
  · simp [parseByte, seekSource, seekSync, h1, hne, hb]

/-- The sentinel after the sync byte is stored, and the cursor is 2 (R154). -/
theorem parseByte_sentinel (h : q.cur = 1) :
    parseByte P P.sentinel q = some (⟨2, q.acc.set 1 P.sentinel⟩, .noResultYet) := by
  simp [parseByte, seekSource, h]

/-- From cursor 2 on the byte is stored whatever it is (R155). -/
theorem parseByte_store (P : Params) (b : Byte) (h2 : 2 ≤ q.cur.val) (h6 : q.cur.val ≤ 6) :
    parseByte P b q = some (⟨q.cur + 1, q.acc.set q.cur.val b⟩, .noResultYet) := by
  have hcur : q.cur ≠ 0 ∧ q.cur ≠ 1 ∧ q.cur ≠ 8 ∧ q.cur ≠ 7 := by simp only [ne_eq, Fin.ext_iff]; omega
  obtain ⟨h0, h1, h8, h7⟩ := hcur
  simp only [parseByte, accumulate, if_neg h0, if_neg h1, if_neg h8, if_neg h7]

/-- The eighth byte has the file decoded (R155). -/
theorem parseByte_last (P : Params) (b : Byte) (h : q.cur = 7) :
    parseByte P b q = some (⟨0, q.acc.set 7 b⟩, emitted (decodeResponse P (q.acc.set 7 b))) := by
  simp [parseByte, accumulate, h]

/-! ### The parser's operations in `IDLE` -/

/-- `PARSER_RESET` restarts the Parser State, and has no other effect (R151). -/
theorem exec_parserReset (hph : s.ph = .idle) : exec .parserReset s = .next (withParser s.parser.restart s) := by
  simp only [exec, execParserReset, atParserPort, hph]

/-- `PARSE_BYTE` has the Parser State and the outcome of the byte step, and no other effect (R152; log 16). -/
theorem exec_parseByte_eq_next (hph : s.ph = .idle) : exec (.parseByte b) s = .next t ↔
    ∃ q o, parseByte s.par b s.parser = some (q, o) ∧ giveBack (.outcome o) (withParser q s) = t := by
  simp only [exec, execParseByte, atParserPort, hph]
  rcases parseByte s.par b s.parser with _ | ⟨q, o⟩ <;> simp

/-- `FEED` has the Parser State, the count and the outcome of its loop, and no other effect (R158). -/
theorem exec_feed_eq_next {bs : List Byte} (hph : s.ph = .idle) : exec (.feed bs) s = .next t ↔
    ∃ q n o, feed s.par s.parser bs = some (q, n, o) ∧ giveBack (.fed n o) (withParser q s) = t := by
  simp only [exec, execFeed, atParserPort, hph]
  rcases feed s.par s.parser bs with _ | ⟨q, n, o⟩ <;> simp

/-- Settles O25: the restart writes the cursor. -/
theorem parserResetWritesCursor : Obligations.ParserResetWritesCursor :=
  fun _ hph => exec_parserReset hph

/-- Settles O26, each clause by the byte step at its cursor. -/
theorem parseByteTable : Obligations.ParseByteTable := by
  intro s b hph
  have table {q o} (h : parseByte s.par b s.parser = some (q, o)) := (exec_parseByte_eq_next hph).2 ⟨q, o, h, rfl⟩
  refine ⟨?_, ?_, ?_, ?_, ?_, ?_, ?_⟩
  · rintro h0 rfl
    exact table (parseByte_sync (.inl h0))
  · exact fun h0 hb => table (parseByte_neither (.inl h0) hb)
  · rintro h1 rfl
    exact table (parseByte_sentinel h1)
  · rintro h1 hne rfl
    exact table (parseByte_sync (.inr ⟨h1, hne⟩))
  · exact fun h1 hne hb => table (parseByte_neither (.inr ⟨h1, hne⟩) hb)
  · exact fun h2 h6 => table (parseByte_store s.par b h2 h6)
  · exact fun h7 => table (parseByte_last s.par b h7)

/-- Settles O27: the invariant gives the two framing bytes, so that only the checksum is left to fail. -/
theorem eighthByteIsTheChecksum : Obligations.EighthByteIsTheChecksum := by
  intro s b hph hi h7
  have hsync := hi.sync (by simp [h7])
  have hsentinel := hi.sentinel (by simp [h7]) (by simp [h7])
  have hstep := parseByte_last s.par b h7
  rw [decodeResponse_framed (b := s.parser.acc.set 7 b) hsync hsentinel, apply_ite emitted] at hstep
  exact (exec_parseByte_eq_next hph).2 ⟨_, _, hstep, rfl⟩

end Sys2Proof.Machine
end

section
/-! PROOFS. `FEED` as the iteration of the byte step (41_parser.md R158, R159): its count, and inputs put one after
another. -/

namespace Sys2Proof.Machine

variable {P : Params} {q q' q'' : Parser} {b : Byte} {bs xs : List Byte} {n m : Nat} {o : ParseOutcome}

/-- Everything `FEED` can do with a byte and more: its first byte step has the result, or it goes on with the rest. -/
theorem feed_cons_cases (h : feed P q (b :: bs) = some (q', n, o)) :
    (parseByte P b q = some (q', o) ∧ o ≠ .noResultYet ∧ n = 1) ∨
    ∃ q1 m, parseByte P b q = some (q1, .noResultYet) ∧ feed P q1 bs = some (q', m, o) ∧ n = m + 1 := by
  rcases hp : parseByte P b q with _ | ⟨q1, o1⟩
  · simp [feed_cons_stuck hp] at h
  · by_cases ho : o1 = .noResultYet
    · subst ho
      rw [feed_cons_none hp, Option.map_eq_some_iff] at h
      obtain ⟨⟨q2, m, o2⟩, hf, heq⟩ := h
      cases heq
      exact .inr ⟨q1, m, rfl, hf, rfl⟩
    · rw [feed_cons_result hp ho] at h
      cases h
      exact .inl ⟨rfl, ho, rfl⟩

/-- Settles O29: `FEED` stops at a result of its first byte step and goes on without one. -/
theorem feedIteratesParseByte : Obligations.FeedIteratesParseByte := by
  intro s hph
  refine ⟨(exec_feed_eq_next hph).2 ⟨_, _, _, feed_nil s.par s.parser, rfl⟩, fun b bs t o hstep hret => ?_⟩
  obtain ⟨q, o, hq, rfl⟩ := (exec_parseByte_eq_next hph).1 hstep
  cases hret
  refine ⟨fun ho => (exec_feed_eq_next hph).2 ⟨_, _, _, feed_cons_result hq ho, rfl⟩, ?_⟩
  rintro rfl u n o' hfeed hret'
  obtain ⟨q', n, o', hq', rfl⟩ := (exec_feed_eq_next (by simpa using hph)).1 hfeed
  cases hret'
  refine (exec_feed_eq_next hph).2 ⟨q', n + 1, o', ?_, rfl⟩
  rw [giveBack_par, withParser_par, giveBack_parser, withParser_parser] at hq'
  rw [feed_cons_none hq, hq']
  rfl

/-- The count of `FEED`: the whole input without a result; with one, at least what the frame lacked, and the cursor is at
0 (R159). -/
theorem feed_count (h : feed P q bs = some (q', n, o)) :
    n ≤ bs.length ∧ (o = .noResultYet → n = bs.length) ∧
      (o ≠ .noResultYet → q'.cur = 0 ∧ 8 ≤ n + q.cur.val) := by
  induction bs generalizing q n with
  | nil => cases h; simp
  | cons b bs ih =>
    obtain ⟨hp, ho, rfl⟩ | ⟨q1, m, hp, hf, rfl⟩ := feed_cons_cases h
    · obtain ⟨hno, -⟩ | ⟨-, h7, h0⟩ := parseByte_count hp
      · exact absurd hno ho
      · exact ⟨by simp, fun hno => absurd hno ho, fun _ => ⟨h0, by simp [h7]⟩⟩
    · obtain ⟨-, hcur⟩ | ⟨hno, -⟩ := parseByte_count hp
      · obtain ⟨hle, hall, hres⟩ := ih hf
        refine ⟨by simpa using hle, fun ho => by simp [hall ho], fun ho => ?_⟩
        obtain ⟨h0, h8⟩ := hres ho
        exact ⟨h0, by omega⟩
      · exact absurd rfl hno

/-- Settles O30: `FEED` is defined below cursor 8, and counts as its loop does. -/
theorem feedCountsBytes : Obligations.FeedCountsBytes := by
  intro s bs hph h8
  obtain ⟨q, n, o, hf⟩ := feed_total s.par bs h8
  refine ⟨q, n, o, hf, (exec_feed_eq_next hph).2 ⟨q, n, o, hf, rfl⟩, ?_, feed_count hf⟩
  rintro rfl
  cases hf
  exact ⟨rfl, rfl, rfl⟩

/-- Input that gives no result, and then more: the more is fed where the first part ended. -/
theorem feed_append (h : feed P q xs = some (q', n, .noResultYet)) (h' : feed P q' bs = some (q'', m, o)) :
    feed P q (xs ++ bs) = some (q'', n + m, o) := by
  induction xs generalizing q n with
  | nil => cases h; simpa using h'
  | cons b xs ih =>
    obtain ⟨-, hno, -⟩ | ⟨q1, k, hp, hf, rfl⟩ := feed_cons_cases h
    · exact absurd rfl hno
    · rw [List.cons_append, feed_cons_none hp, ih hf, Nat.add_right_comm]
      rfl

end Sys2Proof.Machine
end

section
/-! PROOFS. A stream in any cutting (41_parser.md R162): each `FEED` call does what the byte-by-byte trace does with the
bytes it consumed, and traces of consecutive pieces join. -/

namespace Sys2Proof.Machine

variable {P : Params} {q q' q'' : Parser} {b : Byte} {bs xs ys : List Byte} {n k : Nat} {o : ParseOutcome}
  {rs rs' : List (Nat × ParseOutcome)}

theorem addResult_append (n : Nat) (o : ParseOutcome) (rs rs' : List (Nat × ParseOutcome)) :
    addResult n o (rs ++ rs') = addResult n o rs ++ rs' := by cases o <;> rfl

theorem parseTrace_cons (hp : parseByte P b q = some (q', o)) (h : parseTrace P q' (n + 1) bs = some (q'', rs)) :
    parseTrace P q n (b :: bs) = some (q'', addResult (n + 1) o rs) := by
  simp only [parseTrace, hp, h]

/-- Everything the trace of a byte and more is made of. -/
theorem parseTrace_cons_eq_some (h : parseTrace P q n (b :: bs) = some (q'', rs)) :
    ∃ q' o rs', parseByte P b q = some (q', o) ∧ parseTrace P q' (n + 1) bs = some (q'', rs') ∧
      rs = addResult (n + 1) o rs' := by
  rw [parseTrace] at h
  rcases hp : parseByte P b q with _ | ⟨q', o⟩
  · simp [hp] at h
  · rcases ht : parseTrace P q' (n + 1) bs with _ | ⟨q2, rs'⟩
    · simp [hp, ht] at h
    · simp only [hp, ht, Option.some.injEq, Prod.mk.injEq] at h
      obtain ⟨rfl, rfl⟩ := h
      exact ⟨q', o, rs', rfl, ht, rfl⟩

/-- The traces of consecutive pieces join. -/
theorem parseTrace_append (h : parseTrace P q n xs = some (q', rs))
    (h' : parseTrace P q' (n + xs.length) ys = some (q'', rs')) :
    parseTrace P q n (xs ++ ys) = some (q'', rs ++ rs') := by
  induction xs generalizing q n rs with
  | nil => cases h; simpa using h'
  | cons b xs ih =>
    obtain ⟨q1, o, rs1, hp, ht, rfl⟩ := parseTrace_cons_eq_some h
    have hrest := ih ht (by simpa [Nat.add_assoc, Nat.add_comm 1] using h')
    rw [List.cons_append, parseTrace_cons hp hrest, addResult_append]

/-- `FEED` is the trace of the bytes it consumed, and its result the only one there (R158, R162). -/
theorem parseTrace_of_feed (k : Nat) (h : feed P q bs = some (q', n, o)) :
    parseTrace P q k (bs.take n) = some (q', addResult (k + n) o []) := by
  induction bs generalizing q n k with
  | nil => cases h; rfl
  | cons b bs ih =>
    obtain ⟨hp, -, rfl⟩ | ⟨q1, m, hp, hf, rfl⟩ := feed_cons_cases h
    · exact parseTrace_cons hp rfl
    · rw [List.take_succ_cons, parseTrace_cons hp (ih (k + 1) hf), Nat.add_right_comm k 1 m]
      rfl

/-- What a caller has delivered is traced, whatever the cuts (R162). -/
theorem deliver_eq_parseTrace (P : Params) (n : Nat) (bs : List Byte) (cuts : List Nat) (hq : q.cur ≠ 8) :
    ∃ q' rs taken left, deliver P q n bs cuts = some (q', rs, left) ∧ taken ++ left = bs ∧
      parseTrace P q n taken = some (q', rs) := by
  induction cuts generalizing q n bs with
  | nil => exact ⟨q, [], [], bs, rfl, rfl, rfl⟩
  | cons cut cuts ih =>
    obtain ⟨q1, c, o, hf⟩ := feed_total P (bs.take cut) hq
    have hq1 : q1.cur ≠ 8 := feed_induction (fun _ _ _ _ _ => parseByte_cursor) hq hf
    obtain ⟨q2, rs, taken, left, hd, hsplit, ht⟩ := ih (n + c) (bs.drop c) hq1
    have hc : c ≤ cut ∧ c ≤ bs.length := by
      obtain ⟨hle, -⟩ := feed_count hf
      simpa using hle
    have htrace := parseTrace_of_feed n hf
    rw [List.take_take, Nat.min_eq_left hc.1] at htrace
    have hlen : (bs.take c).length = c := by simpa using hc.2
    refine ⟨q2, _, bs.take c ++ taken, left, ?_, ?_, parseTrace_append htrace (hlen.symm ▸ ht)⟩
    · simp only [deliver, hf, hd, ← addResult_append, List.nil_append]
    · rw [List.append_assoc, hsplit, List.take_append_drop]

/-- Settles O32: what was delivered is the stream without what is left. -/
theorem fragmentationInvariance : Obligations.FragmentationInvariance := by
  intro P q bs cuts hq
  obtain ⟨q', rs, taken, left, hd, rfl, ht⟩ := deliver_eq_parseTrace P 0 bs cuts hq
  exact ⟨q', rs, left, hd, List.suffix_append taken left, by simpa using ht⟩

end Sys2Proof.Machine
end

section
/-! PROOFS. How the parser finds a response (41_parser.md R163, R164, R166): from a Parser State that sees a sync byte a
framed list of eight bytes fills the accumulator, and bytes free of the sync byte, or more sync bytes, lead to such a
state. -/

namespace Sys2Proof.Machine

variable {P : Params} {q : Parser} {bs f : List Byte} {resp : Response}

/-- From cursor 2 on the bytes that the frame lacks fill the accumulator and give its result (R155). -/
theorem feed_rest_of_frame (h2 : 2 ≤ q.cur.val) (hne : bs ≠ []) (hlen : q.cur.val + bs.length = 8) :
    feed P q bs = some (⟨0, q.acc.store q.cur.val bs⟩, bs.length,
      emitted (decodeResponse P (q.acc.store q.cur.val bs))) := by
  induction bs generalizing q with
  | nil => exact absurd rfl hne
  | cons b bs ih =>
    rw [List.length_cons] at hlen
    by_cases hbs : bs = []
    · subst hbs
      have h7 : q.cur = 7 := Fin.ext (by simpa using hlen)
      rw [feed_cons_result (parseByte_last P b h7) (emitted_ne _), h7]
      rfl
    · have hpos := List.length_pos_iff.2 hbs
      have hnext : (q.cur + 1).val = q.cur.val + 1 := Fin.val_add_one_of_lt' (by omega)
      have hrest := ih (q := ⟨q.cur + 1, q.acc.set q.cur.val b⟩) (by simp only [hnext]; omega) hbs
        (by simp only [hnext]; omega)
      rw [feed_cons_none (parseByte_store P b h2 (by omega)), hrest, hnext]
      rfl

/-- Where a sync byte is seen, eight framed bytes are consumed and decoded (R155). -/
theorem feed_frame (hq : SeesSync P q) (hlen : bs.length = 6) :
    feed P q (P.sync :: P.sentinel :: bs) = some (⟨0, q.acc.store 0 (P.sync :: P.sentinel :: bs)⟩, 8,
      emitted (decodeResponse P (q.acc.store 0 (P.sync :: P.sentinel :: bs)))) := by
  have hrest := feed_rest_of_frame (P := P) (q := ⟨2, (q.acc.set 0 P.sync).set 1 P.sentinel⟩) (bs := bs) (by simp)
    (List.ne_nil_of_length_eq_add_one hlen) (by simp [hlen])
  rw [feed_cons_none (parseByte_sync hq), feed_cons_none (parseByte_sentinel rfl), hrest, hlen]
  rfl

/-- A valid response is framed, and is the file that decodes to its value (R101). -/
theorem validResponse_framed (hf : ValidResponse P resp f) :
    ∃ bs b, f = P.sync :: P.sentinel :: bs ∧ bs.length = 6 ∧ b.toList = f ∧ decodeResponse P b = .ok resp := by
  obtain ⟨hlen, hd⟩ := hf
  obtain ⟨b, rfl, hd⟩ := (decodeSlice_eq_ok hlen).1 hd
  obtain ⟨h0, h1, -, -⟩ := decodeResponse_eq_ok.1 hd
  exact ⟨[b.b2, b.b3, b.b4, b.b5, b.b6, b.b7], b, by rw [← h0, ← h1]; rfl, rfl, rfl, hd⟩

/-- Where a sync byte is seen, a valid response is consumed whole and is the result (R166). -/
theorem feed_validResponse (hq : SeesSync P q) (hf : ValidResponse P resp f) :
    ∃ q', feed P q f = some (q', 8, .decodedDatagram resp) ∧ q'.cur = 0 ∧ q'.acc.toList = f := by
  obtain ⟨bs, b, rfl, hlen, hb, hd⟩ := validResponse_framed hf
  have hacc : q.acc.store 0 (P.sync :: P.sentinel :: bs) = b :=
    Bytes8.toList_injective (by rw [Bytes8.toList_store_eight _ _ hf.1, hb])
  refine ⟨⟨0, b⟩, ?_, rfl, hb⟩
  rw [feed_frame hq hlen, hacc, hd, emitted]

/-- Bytes free of the sync byte leave a parser at cursor 0 as it is (R153, R163). -/
theorem feed_free_of_sync (hq : q.cur = 0) (hbs : ∀ b ∈ bs, b ≠ P.sync) :
    feed P q bs = some (q, bs.length, .noResultYet) := by
  induction bs with
  | nil => rfl
  | cons b bs ih =>
    obtain ⟨hb, hbs⟩ := List.forall_mem_cons.1 hbs
    have hstep : parseByte P b q = some (q, .noResultYet) := by rw [parseByte_neither (.inl hq) hb, ← hq]
    rw [feed_cons_none hstep, ih hbs]
    rfl

/-- Settles O33: the one call consumes the garbage and then the response; a cutting that delivers the whole stream has
the same trace. -/
theorem resynchronisation : Obligations.Resynchronisation := by
  intro s garbage f resp hph hcur hgarbage hf
  obtain ⟨q, hfeed, h0, hacc⟩ := feed_validResponse (.inl hcur) hf
  have hall := feed_append (feed_free_of_sync hcur hgarbage) hfeed
  refine ⟨⟨q, (exec_feed_eq_next hph).2 ⟨_, _, _, hall, rfl⟩, h0, hacc⟩, fun cuts q' rs hd => ?_⟩
  obtain ⟨q2, rs2, taken, left, hd2, hsplit, htrace⟩ :=
    deliver_eq_parseTrace s.par 0 (garbage ++ f) cuts (q := s.parser) (by simp [hcur])
  rw [hd] at hd2
  cases hd2
  have hone := parseTrace_of_feed 0 hall
  rw [List.take_of_length_le (by simp [hf.1]), ← hsplit, List.append_nil, htrace, Nat.zero_add] at hone
  obtain ⟨-, hrs⟩ := Prod.mk.inj (Option.some.inj hone)
  exact hrs

/-- More sync bytes before a response are each taken for its first byte in turn (R154, R164). -/
theorem feed_syncs_validResponse (k : Nat) (hq : SeesSync P q) (hne : P.sync ≠ P.sentinel)
    (hf : ValidResponse P resp f) :
    ∃ q', feed P q (List.replicate k P.sync ++ f) = some (q', k + 8, .decodedDatagram resp) ∧ q'.cur = 0 ∧
      q'.acc.toList = f := by
  induction k generalizing q with
  | zero => simpa using feed_validResponse hq hf
  | succ k ih =>
    obtain ⟨q', hfeed, h⟩ := ih (q := ⟨1, q.acc.set 0 P.sync⟩) (.inr ⟨rfl, hne⟩)
    refine ⟨q', ?_, h⟩
    rw [List.replicate_succ, List.cons_append, feed_cons_none (parseByte_sync hq), hfeed, Nat.add_right_comm]
    rfl

/-- Settles O34: the last sync byte of the run is the response's own. -/
theorem falseSyncRecovery : Obligations.FalseSyncRecovery := by
  intro s f resp k hph hcur hne hf hk
  obtain ⟨j, rfl⟩ := Nat.exists_eq_add_of_le' hk
  obtain ⟨q, hfeed, h⟩ := feed_syncs_validResponse j (.inl hcur) hne hf
  obtain ⟨bs, -, rfl, -⟩ := validResponse_framed hf
  refine ⟨q, (exec_feed_eq_next hph).2 ⟨_, _, _, ?_, rfl⟩, h⟩
  rw [List.replicate_succ', List.append_assoc]
  exact hfeed

/-- Settles O35: the trace of the eight bytes, which is that of one `FEED`, joins the trace of the bytes before. -/
theorem parserFindsFrame : Obligations.ParserFindsFrame := by
  intro P q q' bs i rs resp _ htrace hsees hf
  obtain ⟨q'', hfeed, h0, -⟩ := feed_validResponse hsees hf
  have hi : (bs.take i).length = i := by
    have hlen := hf.1
    simp only [List.length_take, List.length_drop] at hlen ⊢
    omega
  have hframe := parseTrace_of_feed i hfeed
  rw [List.take_take, Nat.min_self] at hframe
  rw [List.take_add]
  exact ⟨q'', parseTrace_append htrace (by rw [hi, Nat.zero_add]; exact hframe), h0⟩

end Sys2Proof.Machine
end

section
/-! PROOFS. The events of the Transaction Engine, one at a time (42_transaction.md R184 to R193, R202, R204): what each
does in its phase, and that it has no step outside. -/

namespace Sys2Proof.Machine

variable {s t : State} {bs : List Byte}

/-! ### In their phase -/

/-- A command is accepted in `IDLE` (R184). -/
theorem command_idle (hph : s.ph = .idle) (op : Op) (reg : Byte) (data : Word) :
    command op reg data s = .next (acceptCommand op reg data s) := by
  simp only [command, hph]

theorem exec_writeAll_ok (hph : s.ph = .wr) : exec (.writeAll .ok) s = .next (goTo .fl s) := by
  simp only [exec, execWriteAll, hph]

theorem exec_writeAll_err (hph : s.ph = .wr) (e : TransportError) :
    exec (.writeAll (.err e)) s = .next (finish (.err (.transportFailure e)) s) := by
  simp only [exec, execWriteAll, hph]

theorem exec_flush_ok (hph : s.ph = .fl) :
    exec (.flush .ok) s = .next (goTo .echo (beginReadExact s.txn s)) := by
  simp only [exec, execFlush, hph]

theorem exec_flush_err (hph : s.ph = .fl) (e : TransportError) :
    exec (.flush (.err e)) s = .next (finish (.err (.transportFailure e)) s) := by
  simp only [exec, execFlush, hph]

theorem exec_readExact_err (hph : s.ph = .echo ∨ s.ph = .reply) (e : TransportError) :
    exec (.readExact (.err e)) s = .next (finish (.err (.transportFailure e)) s) := by
  rcases hph with hph | hph <;> simp only [exec, execReadExact, hph, readAnswer]

/-- An answer of no byte is a silent bus (R190). -/
theorem exec_readExact_nil (hph : s.ph = .echo ∨ s.ph = .reply) :
    exec (.readExact (.ok [])) s = .next (finish (.err .noResponse) s) := by
  rcases hph with hph | hph <;> simp only [exec, execReadExact, hph, readAnswer]

/-- More bytes than the room offered (R190). -/
theorem exec_readExact_tooLong (hph : s.ph = .echo ∨ s.ph = .reply) (hb : bs ≠ []) (hlong : room s < bs.length) :
    exec (.readExact (.ok bs)) s = .refused .answerTooLong := by
  obtain ⟨b, bs, rfl⟩ := List.exists_cons_of_ne_nil hb
  rcases hph with hph | hph <;> simp only [exec, execReadExact, hph, readAnswer_cons, if_neg (Nat.not_le.2 hlong)]

/-! ### Outside their phase -/

theorem command_busy (hph : s.ph ≠ .idle) (op : Op) (reg : Byte) (data : Word) :
    command op reg data s = .refused .commandWhileBusy := by
  unfold command
  cases h : s.ph with
  | idle => exact absurd h hph
  | wr | fl | echo | reply => rfl

theorem atParserPort_busy (hph : s.ph ≠ .idle) (r : Result) : atParserPort s r = .refused .parserPortClosed := by
  unfold atParserPort
  cases h : s.ph with
  | idle => exact absurd h hph
  | wr | fl | echo | reply => rfl

theorem exec_cancel_idle (hph : s.ph = .idle) : exec .cancel s = .refused .nothingToCancel := by
  simp only [exec, execCancel, hph]

theorem exec_cancel_busy (hph : s.ph ≠ .idle) : exec .cancel s = .next (dropTxn s) := by
  simp only [exec, execCancel]
  cases h : s.ph with
  | idle => exact absurd h hph
  | wr | fl | echo | reply => rfl

theorem exec_writeAll_refused (hph : s.ph ≠ .wr) (a : TxAnswer) :
    exec (.writeAll a) s = .refused .answerNotOutstanding := by
  simp only [exec, execWriteAll]
  cases h : s.ph with
  | wr => exact absurd h hph
  | idle | fl | echo | reply => rfl

theorem exec_flush_refused (hph : s.ph ≠ .fl) (a : TxAnswer) :
    exec (.flush a) s = .refused .answerNotOutstanding := by
  simp only [exec, execFlush]
  cases h : s.ph with
  | fl => exact absurd h hph
  | idle | wr | echo | reply => rfl

theorem exec_readExact_refused (hecho : s.ph ≠ .echo) (hreply : s.ph ≠ .reply) (a : RxAnswer) :
    exec (.readExact a) s = .refused .answerNotOutstanding := by
  simp only [exec, execReadExact]
  cases h : s.ph with
  | echo => exact absurd h hecho
  | reply => exact absurd h hreply
  | idle | wr | fl => rfl

/-! ### The claims about one event -/

/-- Settles O36: the request, the mask and the slave byte are written out. -/
theorem commandAccepted : Obligations.CommandAccepted := by
  intro s reg data hph
  constructor
  · refine (command_idle hph .read reg data).trans ?_
    rw [acceptCommand, requestOf, zextSlave_eq]
    rfl
  · refine (command_idle hph .write reg data).trans ?_
    rw [acceptCommand, requestOf, zextSlave_eq]
    rfl

/-- An accepted read depends on the masked address alone (R186). -/
theorem acceptCommand_read_congr {reg reg' : Byte} (h : maskReg reg = maskReg reg') (x y : Word) (s : State) :
    acceptCommand .read reg x s = acceptCommand .read reg' y s := by
  simp only [acceptCommand, requestOf, encodeRead, h]

/-- Settles O37: outside `IDLE` there is no step, and in `IDLE` the masked addresses are equal. -/
theorem readIgnoresDataAndBitSeven : Obligations.ReadIgnoresDataAndBitSeven := by
  intro s reg reg' x y h
  by_cases hph : s.ph = .idle
  · calc exec (.readTxn reg x) s
        = .next (acceptCommand .read reg x s) := command_idle hph ..
      _ = .next (acceptCommand .read reg' y s) := by rw [acceptCommand_read_congr (maskReg_congr h)]
      _ = exec (.readTxn reg' y) s := (command_idle hph ..).symm
  · exact (command_busy hph ..).trans (command_busy hph ..).symm

/-- Settles O38, by the rules above for an event outside its phase. -/
theorem outOfPhaseHasNoStep : Obligations.OutOfPhaseHasNoStep := by
  intro s
  refine ⟨fun hph reg d b bs => ?_, exec_cancel_idle, exec_writeAll_refused, exec_flush_refused,
    exec_readExact_refused⟩
  exact ⟨command_busy hph .read reg d, command_busy hph .write reg d, atParserPort_busy hph _,
    atParserPort_busy hph _, atParserPort_busy hph _⟩

/-- Settles O39: the updates are written out. -/
theorem writeAllAnswered : Obligations.WriteAllAnswered :=
  fun _ hph => ⟨exec_writeAll_ok hph, exec_writeAll_err hph⟩

/-- Settles O40: the updates are written out. -/
theorem flushAnswered : Obligations.FlushAnswered :=
  fun _ hph => ⟨exec_flush_ok hph, exec_flush_err hph⟩

/-- Settles O46: the update is written out. -/
theorem cancelKeepsRegisters : Obligations.CancelKeepsRegisters := by
  refine fun s => ⟨exec_cancel_busy, fun hph t h => ?_⟩
  simp [exec_cancel_idle hph] at h

/-- Settles O41: below the count the bytes are collected, and the count does not wrap. -/
theorem readExactAnswered : Obligations.ReadExactAnswered := by
  intro s hph
  refine ⟨exec_readExact_err hph, exec_readExact_nil hph, fun bs hb hmore => ?_, fun bs hlong hb => ?_⟩
  · have hroom : bs.length ≤ room s := by simp only [room]; omega
    exact ⟨(collect bs s).got, collect_got_val hroom hb, readExact_more hph hb hmore⟩
  · have hpos := List.length_pos_iff.2 hb
    exact exec_readExact_tooLong hph hb (by simp only [room]; omega)

/-! ### The receive buffer and the counts -/

/-- The state in which a read-exact has its count, with `r` in `RXB` (R189). -/
def filled (r : Bytes8) (s : State) : State := { s with rxb := r, got := s.need }

@[simp] theorem filled_parser (r : Bytes8) (s : State) : (filled r s).parser = s.parser := rfl
@[simp] theorem filled_rxb (r : Bytes8) (s : State) : (filled r s).rxb = r := rfl
@[simp] theorem filled_ph (r : Bytes8) (s : State) : (filled r s).ph = s.ph := rfl
@[simp] theorem filled_opr (r : Bytes8) (s : State) : (filled r s).opr = s.opr := rfl
@[simp] theorem filled_exp (r : Bytes8) (s : State) : (filled r s).exp = s.exp := rfl
@[simp] theorem filled_par (r : Bytes8) (s : State) : (filled r s).par = s.par := rfl

/-- Collecting the bytes still wanted completes the count. -/
theorem collect_eq_filled (hl : s.got.val + bs.length = s.need.val) :
    collect bs s = filled (s.rxb.store s.got.val bs) s := by
  have hgot : Fin.ofNat 9 (s.got.val + bs.length) = s.need :=
    Fin.ext (by rw [Fin.val_ofNat, hl, Nat.mod_eq_of_lt s.need.isLt])
  rw [collect, filled, hgot]

/-- Settles O43: the count is complete, and the latched operation says what follows. -/
theorem echoCompletes : Obligations.EchoCompletes := by
  intro s bs hph hb hl
  have hnext : exec (.readExact (.ok bs)) s = .next (echoComplete (filled (s.rxb.store s.got.val bs) s)) :=
    collect_eq_filled hl ▸ readExact_echo hph hb hl
  rw [hnext]
  obtain ⟨hopr, hend⟩ | ⟨hopr, hend⟩ := echoComplete_cases (filled (s.rxb.store s.got.val bs) s) <;> rw [hend]
  · exact ⟨fun _ => rfl, fun hread => by simp [hread] at hopr⟩
  · exact ⟨fun hwrite => by simp [hwrite] at hopr, fun _ => rfl⟩

/-- The end of the echo leaves `RXB`. -/
theorem echoComplete_rxb (s : State) : (echoComplete s).rxb = s.rxb := by
  obtain ⟨-, h⟩ | ⟨-, h⟩ := echoComplete_cases s <;> rw [h] <;> rfl

/-- Every storing answer puts its bytes at `RXB[GOT]` on, and fits there (R190). -/
theorem readExact_rxb (h : execReadExact (.ok bs) s = .next t) (hb : bs ≠ []) :
    t.rxb = s.rxb.store s.got.val bs ∧ s.got.val + bs.length ≤ 8 := by
  obtain ⟨-, ⟨e, ha, -⟩ | ⟨ha, -⟩ | ⟨bs, ha, -, hroom, hend⟩⟩ := readExact_cases h
  · cases ha
  · cases ha; exact absurd rfl hb
  · cases ha
    have hfit : s.got.val + bs.length ≤ 8 := by
      have hneed := s.need.isLt
      have hpos := List.length_pos_iff.2 hb
      simp only [room] at hroom
      omega
    obtain ⟨-, rfl⟩ | ⟨-, -, rfl⟩ | ⟨-, -, q, n, o, -, rfl⟩ := hend
    · exact ⟨rfl, hfit⟩
    · exact ⟨echoComplete_rxb _, hfit⟩
    · exact ⟨rfl, hfit⟩

/-- Settles O42: a read of `RXB` after the storing, outside and inside the bytes stored. -/
theorem receiveBufferBytes : Obligations.ReceiveBufferBytes := by
  intro s t bs h hb
  obtain ⟨hrxb, hfit⟩ := readExact_rxb h hb
  rw [hrxb]
  constructor
  · intro i hi
    by_cases h8 : i < 8
    · rw [Bytes8.getElem?_store _ _ _ _ h8, if_neg (by omega)]
    · rw [List.getElem?_eq_none (by simpa using h8), List.getElem?_eq_none (by simpa using h8)]
  · intro i hi
    rw [Bytes8.getElem?_store _ _ _ _ (by omega), if_pos (by omega), Nat.add_sub_cancel_left]

/-! ### The echo -/

/-- `RXB` takes a value. -/
def withRxb (r : Bytes8) (s : State) : State := { s with rxb := r }

/-- The end of the echo does not read `RXB` (R193). -/
theorem echoComplete_withRxb (r : Bytes8) (s : State) : echoComplete (withRxb r s) = withRxb r (echoComplete s) := by
  unfold echoComplete
  rw [show (withRxb r s).opr = s.opr from rfl]
  cases s.opr <;> rfl

/-- Bytes of the same length are collected to states that differ in `RXB` alone. -/
theorem collect_eq_withRxb {bs' : List Byte} (h : bs.length = bs'.length) (s : State) :
    collect bs' s = withRxb (s.rxb.store s.got.val bs') (collect bs s) := by
  simp only [collect, withRxb, h]

/-- Settles O44, by the cases of an answer; a shorter echo is told by its length alone. -/
theorem echoNotLookedAt : Obligations.EchoNotLookedAt := by
  intro s t bs bs' hph hlen h
  have hne (hb : bs ≠ []) : bs' ≠ [] :=
    List.ne_nil_of_length_pos (hlen ▸ List.length_pos_iff.2 hb)
  obtain ⟨-, ⟨e, ha, -⟩ | ⟨ha, rfl⟩ | ⟨bs, ha, hb, -, hend⟩⟩ := readExact_cases (a := .ok bs) h
  · cases ha
  · cases ha
    obtain rfl : bs' = [] := List.length_eq_zero_iff.1 hlen.symm
    exact ⟨s.rxb, h⟩
  · cases ha
    refine ⟨s.rxb.store s.got.val bs', ?_⟩
    obtain ⟨hmore, rfl⟩ | ⟨hl, -, rfl⟩ | ⟨-, hreply, -⟩ := hend
    · refine (readExact_more (.inl hph) (hne hb) (hlen ▸ hmore)).trans ?_
      rw [collect_eq_withRxb hlen]
      rfl
    · refine (readExact_echo hph (hne hb) (hlen ▸ hl)).trans ?_
      rw [collect_eq_withRxb hlen, echoComplete_withRxb]
      rfl
    · rw [hph] at hreply
      cases hreply

end Sys2Proof.Machine
end

section
/-! PROOFS. The reply (42_transaction.md R196 to R198): its eight bytes in one `FEED` from cursor 0, framed or not. -/

namespace Sys2Proof.Machine

variable {P : Params} {q : Parser} {s : State} {r : Bytes8} {b0 b1 : Byte} {bs : List Byte}

/-- Too few bytes to complete a frame give no result (R159). -/
theorem feed_short (P : Params) (h : q.cur.val + bs.length < 8) :
    ∃ q' n, feed P q bs = some (q', n, .noResultYet) := by
  obtain ⟨q', n, o, hf⟩ := feed_total P bs (q := q) (by simp only [ne_eq, Fin.ext_iff]; omega)
  obtain ⟨hle, -, hres⟩ := feed_count hf
  have ho : o = .noResultYet := by
    by_contra ho
    obtain ⟨-, h8⟩ := hres ho
    omega
  exact ⟨q', n, ho ▸ hf⟩

/-- A byte without a result leaves too few bytes to complete a frame. -/
theorem feed_cons_short {q' : Parser} (hp : parseByte P b0 q = some (q', .noResultYet))
    (h : q'.cur.val + bs.length < 8) : ∃ q'' n, feed P q (b0 :: bs) = some (q'', n, .noResultYet) := by
  obtain ⟨q'', n, hf⟩ := feed_short P h
  exact ⟨q'', n + 1, by rw [feed_cons_none hp, hf]; rfl⟩

/-- Eight bytes from cursor 0 that do not begin with sync byte and sentinel give no result: when the frame is seen to be
none, at most seven bytes are left for another (R196). -/
theorem feed_misframed (hq : q.cur = 0) (hlen : bs.length = 6) (h : b0 ≠ P.sync ∨ b1 ≠ P.sentinel) :
    ∃ q' n, feed P q (b0 :: b1 :: bs) = some (q', n, .noResultYet) := by
  by_cases h0 : b0 = P.sync
  · obtain rfl := h0
    have h1 : b1 ≠ P.sentinel := h.resolve_left (not_not.2 rfl)
    have hseek : parseByte P b1 ⟨1, q.acc.set 0 P.sync⟩ =
        some (seekSync P b1 ⟨1, q.acc.set 0 P.sync⟩, .noResultYet) := by
      simp [parseByte, seekSource, h1]
    have hcur : (seekSync P b1 ⟨1, q.acc.set 0 P.sync⟩).cur.val ≤ 1 := by
      unfold seekSync
      split_ifs <;> simp
    obtain ⟨q', n, hf⟩ := feed_cons_short hseek (bs := bs) (by omega)
    exact ⟨q', n + 1, by rw [feed_cons_none (parseByte_sync (.inl hq)), hf]; rfl⟩
  · exact feed_cons_short (parseByte_neither (.inl hq) h0) (by simp [hlen])

/-- A file of eight bytes as the list the parser is fed. -/
theorem toList_eq_cons (r : Bytes8) : r.toList = r.b0 :: r.b1 :: [r.b2, r.b3, r.b4, r.b5, r.b6, r.b7] := rfl

/-- Eight framed bytes from cursor 0 replace the accumulator and are decoded (R155). -/
theorem feed_framed_file (hq : q.cur = 0) (h0 : r.b0 = P.sync) (h1 : r.b1 = P.sentinel) :
    feed P q r.toList = some (⟨0, r⟩, 8, emitted (decodeResponse P r)) := by
  have hfeed := feed_frame (P := P) (q := q) (bs := [r.b2, r.b3, r.b4, r.b5, r.b6, r.b7]) (.inl hq) rfl
  rw [← h0, ← h1, ← toList_eq_cons] at hfeed
  have hacc : q.acc.store 0 r.toList = r := Bytes8.toList_injective (Bytes8.toList_store_eight _ _ rfl)
  rw [hfeed, hacc]

/-- What eight bytes of a reply are the result of (R196, R197). -/
def replyOf (P : Params) (exp : Byte) (r : Bytes8) : TxnResult :=
  if r.b0 ≠ P.sync ∨ r.b1 ≠ P.sentinel then .err .noResponse
  else if P.ck [r.b0, r.b1, r.b2, r.b3, r.b4, r.b5, r.b6] ≠ r.b7 then .err .checksumMismatch
  else if r.b2 ≠ exp then .err (.addressMismatch exp r.b2)
  else .okRead (unbe32 r.b3 r.b4 r.b5 r.b6)

/-- The result of framed bytes: the checksum, then the address (R197). -/
theorem replyResult_framed (exp : Byte) (h0 : r.b0 = P.sync) (h1 : r.b1 = P.sentinel) :
    replyResult exp (emitted (decodeResponse P r)) = replyOf P exp r := by
  have hframed : ¬ (r.b0 ≠ P.sync ∨ r.b1 ≠ P.sentinel) := by simp [h0, h1]
  rw [decodeResponse_framed h0 h1, replyOf, if_neg hframed]
  by_cases hck : P.ck [r.b0, r.b1, r.b2, r.b3, r.b4, r.b5, r.b6] = r.b7
  · rw [if_pos hck, if_neg (not_not.2 hck)]
    rfl
  · rw [if_neg hck, if_pos hck]
    rfl

/-- The eight bytes of a reply, fed from cursor 0. -/
theorem feed_reply (P : Params) (exp : Byte) (r : Bytes8) (hq : q.cur = 0) :
    ∃ q' n o, feed P q r.toList = some (q', n, o) ∧ replyResult exp o = replyOf P exp r ∧
      (r.b0 = P.sync → r.b1 = P.sentinel → q' = ⟨0, r⟩) := by
  by_cases hframe : r.b0 ≠ P.sync ∨ r.b1 ≠ P.sentinel
  · obtain ⟨q', n, hf⟩ := feed_misframed (bs := [r.b2, r.b3, r.b4, r.b5, r.b6, r.b7]) hq rfl hframe
    refine ⟨q', n, _, hf, ?_, fun h0 h1 => ?_⟩
    · rw [replyOf, if_pos hframe]
      rfl
    · simp [h0, h1] at hframe
  · obtain ⟨h0, h1⟩ : r.b0 = P.sync ∧ r.b1 = P.sentinel := by simpa using hframe
    exact ⟨⟨0, r⟩, 8, _, feed_framed_file hq h0 h1, replyResult_framed exp h0 h1, fun _ _ => rfl⟩

/-- Settles O45: the invariant gives the count of eight and the cursor at 0. -/
theorem replyCompletes : Obligations.ReplyCompletes := by
  intro s bs hi hph hb hl
  obtain ⟨-, hneed, -⟩ := hi.reply hph
  obtain ⟨-, hcur, -⟩ := hi.busy (by simp [hph])
  have hcount : s.got.val + bs.length = s.need.val := by rw [hneed]; exact hl
  obtain ⟨q, n, o, hf, hres, hq⟩ := feed_reply s.par s.exp (s.rxb.store s.got.val bs) hcur
  refine ⟨q, ?_, hq⟩
  have hnext : exec (.readExact (.ok bs)) s = replyComplete (filled (s.rxb.store s.got.val bs) s) :=
    collect_eq_filled hcount ▸ readExact_reply hph hb hcount
  rw [hnext, replyComplete, filled_par, filled_parser, filled_rxb, hf]
  simp only [hres, replyOf, finish, withParser, filled, hneed]

end Sys2Proof.Machine
end

section
/-! PROOFS. What commands and answers leave unchanged (42_transaction.md R185 to R200). -/

namespace Sys2Proof.Machine

variable {s t : State}

/-- What every answer leaves: the request side, the latch, the configuration and the model's own fields. -/
structure AnswerFrame (s t : State) : Prop where
  txb : t.txb = s.txb
  txn : t.txn = s.txn
  opr : t.opr = s.opr
  exp : t.exp = s.exp
  slave : t.slave = s.slave
  par : t.par = s.par
  inputs : t.inputs = s.inputs
  ret : t.ret = s.ret
  fresh : t.fresh = s.fresh
  parser : s.ph ≠ .reply → t.parser = s.parser

theorem goTo_answerFrame (p : Phase) (s : State) : AnswerFrame s (goTo p s) :=
  ⟨rfl, rfl, rfl, rfl, rfl, rfl, rfl, rfl, rfl, fun _ => rfl⟩

theorem finish_answerFrame (x : TxnResult) (s : State) : AnswerFrame s (finish x s) :=
  ⟨rfl, rfl, rfl, rfl, rfl, rfl, rfl, rfl, rfl, fun _ => rfl⟩

theorem collect_answerFrame (bs : List Byte) (s : State) : AnswerFrame s (collect bs s) :=
  ⟨rfl, rfl, rfl, rfl, rfl, rfl, rfl, rfl, rfl, fun _ => rfl⟩

theorem beginReadExact_answerFrame (n : Fin 9) (s : State) : AnswerFrame s (beginReadExact n s) :=
  ⟨rfl, rfl, rfl, rfl, rfl, rfl, rfl, rfl, rfl, fun _ => rfl⟩

theorem withParser_answerFrame (q : Parser) (hph : s.ph = .reply) : AnswerFrame s (withParser q s) :=
  ⟨rfl, rfl, rfl, rfl, rfl, rfl, rfl, rfl, rfl, fun h => absurd hph h⟩

/-- Two updates after one another leave what both leave, when the first keeps the phase. -/
theorem AnswerFrame.trans {u : State} (h : AnswerFrame s t) (hph : t.ph = s.ph) (h' : AnswerFrame t u) :
    AnswerFrame s u :=
  ⟨h'.txb.trans h.txb, h'.txn.trans h.txn, h'.opr.trans h.opr, h'.exp.trans h.exp, h'.slave.trans h.slave,
    h'.par.trans h.par, h'.inputs.trans h.inputs, h'.ret.trans h.ret, h'.fresh.trans h.fresh,
    fun hr => (h'.parser (hph ▸ hr)).trans (h.parser hr)⟩

theorem echoComplete_answerFrame (s : State) : AnswerFrame s (echoComplete s) := by
  obtain ⟨-, h⟩ | ⟨-, h⟩ := echoComplete_cases s <;> rw [h]
  · exact finish_answerFrame _ s
  · exact (beginReadExact_answerFrame 8 s).trans rfl (goTo_answerFrame .reply _)

theorem readExact_answerFrame {a : RxAnswer} (h : execReadExact a s = .next t) : AnswerFrame s t := by
  obtain ⟨-, ⟨e, -, rfl⟩ | ⟨-, rfl⟩ | ⟨bs, -, -, -, ⟨-, rfl⟩ | ⟨-, -, rfl⟩ | ⟨-, hph, q, n, o, -, rfl⟩⟩⟩ :=
    readExact_cases h
  · exact finish_answerFrame _ s
  · exact finish_answerFrame _ s
  · exact collect_answerFrame bs s
  · exact (collect_answerFrame bs s).trans rfl (echoComplete_answerFrame _)
  · exact ((collect_answerFrame bs s).trans rfl (withParser_answerFrame q hph)).trans rfl (finish_answerFrame _ _)

/-- Everything a command can lead to (R184). -/
theorem eq_acceptCommand_of_command {op : Op} {reg : Byte} {data : Word} (h : command op reg data s = .next t) :
    t = acceptCommand op reg data s := by
  by_cases hph : s.ph = .idle
  · exact (Host.Outcome.next.inj ((command_idle hph op reg data).symm.trans h)).symm
  · simp [command_busy hph] at h

/-- Everything an answer to `TxWrite` can lead to (R187). -/
theorem writeAll_cases {a : TxAnswer} (h : exec (.writeAll a) s = .next t) :
    s.ph = .wr ∧ (t = goTo .fl s ∨ ∃ x, t = finish x s) := by
  by_cases hph : s.ph = .wr
  · refine ⟨hph, ?_⟩
    cases a with
    | ok => exact .inl (Host.Outcome.next.inj ((exec_writeAll_ok hph).symm.trans h)).symm
    | err e => exact .inr ⟨_, (Host.Outcome.next.inj ((exec_writeAll_err hph e).symm.trans h)).symm⟩
  · simp [exec_writeAll_refused hph] at h

/-- Everything an answer to `TxFlush` can lead to (R188). -/
theorem flush_cases {a : TxAnswer} (h : exec (.flush a) s = .next t) :
    s.ph = .fl ∧ (t = goTo .echo (beginReadExact s.txn s) ∨ ∃ x, t = finish x s) := by
  by_cases hph : s.ph = .fl
  · refine ⟨hph, ?_⟩
    cases a with
    | ok => exact .inl (Host.Outcome.next.inj ((exec_flush_ok hph).symm.trans h)).symm
    | err e => exact .inr ⟨_, (Host.Outcome.next.inj ((exec_flush_err hph e).symm.trans h)).symm⟩
  · simp [exec_flush_refused hph] at h

/-- Every answer leaves what `AnswerFrame` lists. -/
theorem answer_frame {i : Instr} (h : exec i s = .next t)
    (hi : (∃ a, i = .writeAll a) ∨ (∃ a, i = .flush a) ∨ (∃ a, i = .readExact a)) : AnswerFrame s t := by
  obtain ⟨a, rfl⟩ | ⟨a, rfl⟩ | ⟨a, rfl⟩ := hi
  · obtain ⟨-, rfl | ⟨x, rfl⟩⟩ := writeAll_cases h
    · exact goTo_answerFrame .fl s
    · exact finish_answerFrame x s
  · obtain ⟨-, rfl | ⟨x, rfl⟩⟩ := flush_cases h
    · exact (beginReadExact_answerFrame s.txn s).trans rfl (goTo_answerFrame .echo _)
    · exact finish_answerFrame x s
  · exact readExact_answerFrame h

/-- Settles O47, by what a command, an answer, and an answer to `TxWrite` or `TxFlush` can lead to. -/
theorem engineFrame : Obligations.EngineFrame := by
  intro s t i h
  refine ⟨?_, fun hi => ?_, ?_, ?_⟩
  · rintro ⟨r, d, rfl | rfl⟩ <;> obtain rfl := eq_acceptCommand_of_command h <;>
      exact ⟨rfl, rfl, rfl, rfl, rfl, rfl, rfl, rfl, rfl⟩
  · obtain ⟨htxb, htxn, hopr, hexp, hslave, hpar, hinputs, hret, hfresh, hparser⟩ := answer_frame h hi
    exact ⟨htxb, htxn, hopr, hexp, hslave, hpar, hinputs, hret, hfresh, hparser⟩
  · rintro ⟨a, rfl⟩
    obtain ⟨-, rfl | ⟨x, rfl⟩⟩ := writeAll_cases h <;> exact ⟨rfl, rfl, rfl⟩
  · rintro ⟨a, rfl⟩
    obtain ⟨-, rfl | ⟨x, rfl⟩⟩ := flush_cases h <;> rfl

end Sys2Proof.Machine
end

section
/-! PROOFS. A transaction by its events is its sequential text (42_transaction.md R189, R195, R200, R205): the run of
the machine on a list of answers is read as the text's calls and what is done with the text's end. -/

namespace Sys2Proof.Machine

variable {s t : State} {α β : Type}

/-- A run after some more calls. -/
def afterCalls (calls : List Call) (r : List Call × TxnEnd) : List Call × TxnEnd := (calls ++ r.1, r.2)

/-- What a transaction does with the end of a piece of its text, with the Parser State `q` since the command: an error
ends it (R183), a value goes on to `k`. -/
def conclude (q : Parser) (k : α → List Answer → List Call × TxnEnd) :
    List Call × Ended α → List Call × TxnEnd
  | (calls, .returned v rest) => afterCalls calls (k v rest)
  | (calls, .raised x rest) => (calls, .ended (.err x) q rest)
  | (calls, .waiting) => (calls, .waiting)
  | (calls, .noStep) => (calls, .noStep)

/-- A text that returned without a call. -/
theorem conclude_returned (q : Parser) (k : α → List Answer → List Call × TxnEnd) (v : α) (rest : List Answer) :
    conclude q k ([], .returned v rest) = k v rest := rfl

/-- A text whose first calls were answered. -/
theorem conclude_afterCalls (q : Parser) (k : α → List Answer → List Call × TxnEnd) (calls : List Call)
    (m : List Call × Ended α) : conclude q k (calls ++ m.1, m.2) = afterCalls calls (conclude q k m) := by
  obtain ⟨calls', ⟨v, rest⟩ | _ | _ | _⟩ := m
  · simp only [conclude, afterCalls, List.append_assoc]
  all_goals rfl

/-- One piece of text after another (R17). -/
theorem conclude_andThen (q : Parser) (k : β → List Answer → List Call × TxnEnd) (m : Text α) (f : α → Text β)
    (answers : List Answer) :
    conclude q k ((m.andThen f) answers) = conclude q (fun v rest => conclude q k (f v rest)) (m answers) := by
  unfold Text.andThen
  rcases m answers with ⟨calls, ⟨v, rest⟩ | _ | _ | _⟩
  · exact conclude_afterCalls q k calls (f v rest)
  all_goals rfl

/-! ### The machine's run -/

/-- The run goes on from where an event led (R204). -/
def runResult (rest : List Answer) : Result → List Call × TxnEnd
  | .next t => runAnswers t rest
  | .fault _ => ([], .noStep)
  | .refused _ => ([], .noStep)

/-- With a call outstanding and no answer the run waits (R191). -/
theorem runAnswers_nil {call : Call} (h : outstanding s = some call) : runAnswers s [] = ([call], .waiting) := by
  simp only [runAnswers, h]

/-- With a call outstanding the next answer's event is executed. -/
theorem runAnswers_cons {call : Call} (h : outstanding s = some call) (a : Answer) (rest : List Answer) :
    runAnswers s (a :: rest) = afterCalls [call] (runResult rest (exec a.instr s)) := by
  simp only [runAnswers, h]
  cases exec a.instr s <;> rfl

/-- With no call outstanding the run has ended (R206). -/
theorem runAnswers_idle (h : s.ph = .idle) (answers : List Answer) : runAnswers s answers = ([], endOf s answers) := by
  cases answers <;> simp only [runAnswers, outstanding_eq_none.2 h]

/-- A finished transaction ends with its result. -/
theorem runAnswers_finish (r : TxnResult) (s : State) (answers : List Answer) :
    runAnswers (finish r s) answers = ([], .ended r s.parser answers) := runAnswers_idle rfl answers

/-- In `WR` the run is the text of the write of the request (R187). -/
theorem runAnswers_wr (hph : s.ph = .wr) (answers : List Answer) :
    runAnswers s answers =
      conclude s.parser (fun _ rest => runAnswers (goTo .fl s) rest)
        (txWriteText (s.txb.toList.take s.txn.val) answers) := by
  have hcall := outstanding_eq_txWrite.2 ⟨hph, rfl⟩
  cases answers with
  | nil => exact runAnswers_nil hcall
  | cons a rest =>
    rw [runAnswers_cons hcall]
    match a with
    | .write .ok => rw [Answer.instr, exec_writeAll_ok hph]; rfl
    | .write (.err e) => rw [Answer.instr, exec_writeAll_err hph, runResult, runAnswers_finish]; rfl
    | .flush a => rw [Answer.instr, exec_flush_refused (by simp [hph])]; rfl
    | .read a => rw [Answer.instr, exec_readExact_refused (by simp [hph]) (by simp [hph])]; rfl

/-- In `FL` the run is the text of the flush (R188). -/
theorem runAnswers_fl (hph : s.ph = .fl) (answers : List Answer) :
    runAnswers s answers =
      conclude s.parser (fun _ rest => runAnswers (goTo .echo (beginReadExact s.txn s)) rest)
        (txFlushText answers) := by
  have hcall := outstanding_eq_txFlush.2 hph
  cases answers with
  | nil => exact runAnswers_nil hcall
  | cons a rest =>
    rw [runAnswers_cons hcall]
    match a with
    | .flush .ok => rw [Answer.instr, exec_flush_ok hph]; rfl
    | .flush (.err e) => rw [Answer.instr, exec_flush_err hph, runResult, runAnswers_finish]; rfl
    | .write a => rw [Answer.instr, exec_writeAll_refused (by simp [hph])]; rfl
    | .read a => rw [Answer.instr, exec_readExact_refused (by simp [hph]) (by simp [hph])]; rfl

/-! ### The read-exact -/

/-- What the end of the count does, in `ECHO` and in `REPLY` (R192, R196). -/
def atCount (s : State) : Result :=
  match s.ph with
  | .echo => .next (echoComplete s)
  | .reply => replyComplete s
  | .idle | .wr | .fl => .refused .answerNotOutstanding

/-- The answer that brings the bytes still wanted. -/
theorem exec_readExact_count {bs : List Byte} (hph : s.ph = .echo ∨ s.ph = .reply) (hb : bs ≠ [])
    (hl : s.got.val + bs.length = s.need.val) :
    exec (.readExact (.ok bs)) s = atCount (filled (s.rxb.store s.got.val bs) s) := by
  rw [← collect_eq_filled hl]
  rcases hph with hph | hph
  · exact (readExact_echo hph hb hl).trans (by simp only [atCount, collect_ph, hph])
  · exact (readExact_reply hph hb hl).trans (by simp only [atCount, collect_ph, hph])

/-- With the bytes collected the loop returns them without a call (R189). -/
theorem readLoop_full {n : Nat} {collected : List Byte} (h : n ≤ collected.length) (answers : List Answer) :
    readLoop n collected answers = ([], .returned collected answers) := by
  cases answers <;> simp only [readLoop, if_neg (Nat.not_lt.2 h)]

/-- One turn of the loop, for some bytes (R189). -/
theorem conclude_readLoop_bytes {n : Nat} {collected bs : List Byte} (q : Parser)
    (k : List Byte → List Answer → List Call × TxnEnd) (hb : bs ≠ []) (h : bs.length ≤ n - collected.length)
    (rest : List Answer) :
    conclude q k (readLoop n collected (.read (.ok bs) :: rest)) =
      afterCalls [.rxRead (n - collected.length)] (conclude q k (readLoop n (collected ++ bs) rest)) := by
  obtain ⟨b, bs, rfl⟩ := List.exists_cons_of_ne_nil hb
  have hlt : collected.length < n := by simp only [List.length_cons] at h; omega
  rw [← conclude_afterCalls]
  simp only [readLoop, if_pos hlt, if_pos h, List.singleton_append]

/-- Some of the bytes still wanted are collected, and the run goes on (R190). -/
theorem runAnswers_collect {bs : List Byte} (hph : s.ph = .echo ∨ s.ph = .reply) (hb : bs ≠ [])
    (hmore : s.got.val + bs.length < s.need.val) (rest : List Answer) :
    runAnswers s (.read (.ok bs) :: rest) = afterCalls [.rxRead (room s)] (runAnswers (collect bs s) rest) := by
  have hnext : exec (Answer.read (.ok bs)).instr s = .next (collect bs s) := readExact_more hph hb hmore
  rw [runAnswers_cons (outstanding_eq_rxRead.2 ⟨hph, rfl⟩), hnext]
  rfl

/-- All of the bytes still wanted are collected, and the count ends (R190). -/
theorem runAnswers_count {bs : List Byte} (hph : s.ph = .echo ∨ s.ph = .reply) (hb : bs ≠ [])
    (hl : s.got.val + bs.length = s.need.val) (rest : List Answer) :
    runAnswers s (.read (.ok bs) :: rest) =
      afterCalls [.rxRead (room s)] (runResult rest (atCount (filled (s.rxb.store s.got.val bs) s))) := by
  rw [runAnswers_cons (outstanding_eq_rxRead.2 ⟨hph, rfl⟩), ← exec_readExact_count hph hb hl]
  rfl

/-- While bytes are read no request is answered. -/
theorem reading_ne (hph : s.ph = .echo ∨ s.ph = .reply) : s.ph ≠ .wr ∧ s.ph ≠ .fl := by
  rcases hph with hph | hph <;> simp [hph]

/-- The bytes collected are fewer than wanted, and the room is for the rest. -/
theorem collected_wanted (hwant : s.got.val < s.need.val) :
    (s.rxb.toList.take s.got.val).length < s.need.val ∧
      s.need.val - (s.rxb.toList.take s.got.val).length = room s := by
  have hlen : (s.rxb.toList.take s.got.val).length = s.got.val := by
    rw [List.length_take, Bytes8.toList_length]
    omega
  rw [hlen]
  exact ⟨hwant, rfl⟩

/-- While bytes are wanted the run is the loop of `READ_EXACT`, with the bytes collected in `RXB` below `GOT`; `k` is
what the machine does at the count, whatever else `RXB` holds (R189, R190). -/
theorem runAnswers_readLoop {k : List Byte → List Answer → List Call × TxnEnd} (hph : s.ph = .echo ∨ s.ph = .reply)
    (hwant : s.got.val < s.need.val)
    (hk : ∀ r rest, runResult rest (atCount (filled r s)) = k (r.toList.take s.need.val) rest)
    (answers : List Answer) :
    runAnswers s answers = conclude s.parser k (readLoop s.need.val (s.rxb.toList.take s.got.val) answers) := by
  induction answers generalizing s with
  | nil =>
    obtain ⟨hlt, hroom⟩ := collected_wanted hwant
    rw [runAnswers_nil (outstanding_eq_rxRead.2 ⟨hph, rfl⟩), readLoop, if_pos hlt, hroom]
    rfl
  | cons a rest ih =>
    have hcall := outstanding_eq_rxRead.2 ⟨hph, rfl⟩
    obtain ⟨hlt, hroom⟩ := collected_wanted hwant
    match a with
    | .write a =>
      rw [runAnswers_cons hcall, Answer.instr, exec_writeAll_refused (reading_ne hph).1, readLoop, if_pos hlt, hroom]
      rfl
    | .flush a =>
      rw [runAnswers_cons hcall, Answer.instr, exec_flush_refused (reading_ne hph).2, readLoop, if_pos hlt, hroom]
      rfl
    | .read (.err e) =>
      rw [runAnswers_cons hcall, Answer.instr, exec_readExact_err hph, runResult, runAnswers_finish, readLoop,
        if_pos hlt, hroom]
      rfl
    | .read (.ok []) =>
      rw [runAnswers_cons hcall, Answer.instr, exec_readExact_nil hph, runResult, runAnswers_finish, readLoop,
        if_pos hlt, hroom]
      rfl
    | .read (.ok (b :: bs)) =>
      by_cases hfit : (b :: bs).length ≤ room s
      · have hstored := Bytes8.take_store s.rxb s.got.val (b :: bs) (by simp only [room] at hfit; omega)
        rw [conclude_readLoop_bytes _ _ (by simp) (hroom ▸ hfit), hroom, ← hstored]
        by_cases hmore : s.got.val + (b :: bs).length < s.need.val
        · have hgot : (collect (b :: bs) s).got.val = s.got.val + (b :: bs).length := collect_got_val hfit (by simp)
          rw [runAnswers_collect hph (by simp) hmore, ih (s := collect (b :: bs) s) hph (hgot ▸ hmore) hk, collect_need,
            collect_rxb, hgot, collect_parser]
        · have hl : s.got.val + (b :: bs).length = s.need.val := by simp only [room] at hfit; omega
          rw [runAnswers_count hph (by simp) hl, hk, hl, readLoop_full (by simp; omega), conclude_returned]
      · rw [runAnswers_cons hcall, Answer.instr, exec_readExact_tooLong hph (by simp) (Nat.not_le.1 hfit), readLoop,
          if_pos hlt, hroom, if_neg hfit]
        rfl

/-- A read-exact from its beginning, of one byte and more (R189). -/
theorem runAnswers_beginReadExact {p : Phase} {n : Fin 9} {k : List Byte → List Answer → List Call × TxnEnd}
    (hp : p = .echo ∨ p = .reply) (hn : 0 < n)
    (hk : ∀ r rest, runResult rest (atCount (filled r (goTo p (beginReadExact n s)))) = k (r.toList.take n.val) rest)
    (answers : List Answer) :
    runAnswers (goTo p (beginReadExact n s)) answers = conclude s.parser k (readExactText n.val answers) :=
  runAnswers_readLoop hp hn hk answers

/-! ### The two transactions -/

/-- Steps 1 and 2 of both transactions: the request's bytes in `TXB` are written, flushed, and read back; `k` is what the
end of the echo goes on to (R182). -/
theorem runAnswers_request {k : List Answer → List Call × TxnEnd} (hph : s.ph = .wr) (hn : 0 < s.txn)
    (hk : ∀ r rest, runAnswers (echoComplete (filled r (goTo .echo (beginReadExact s.txn (goTo .fl s))))) rest = k rest)
    (answers : List Answer) :
    runAnswers s answers =
      conclude s.parser (fun _ => k) (requestText (s.txb.toList.take s.txn.val) answers) := by
  have hlen : (s.txb.toList.take s.txn.val).length = s.txn.val := by
    rw [List.length_take, Bytes8.toList_length]
    omega
  have hecho (rest : List Answer) :=
    runAnswers_beginReadExact (s := goTo .fl s) (k := fun _ => k) (.inl rfl) hn hk rest
  have hflush (rest : List Answer) := runAnswers_fl (s := goTo .fl s) rfl rest
  simp only [goTo_txn, goTo_parser] at hecho hflush
  simp only [runAnswers_wr hph, hflush, hecho, requestText, conclude_andThen, hlen]

/-- The end of a reply as text: the eight bytes are fed, and the outcome is the result (R196). -/
def replyText (P : Params) (q : Parser) (exp : Byte) (rep : List Byte) (rest : List Answer) : List Call × TxnEnd :=
  match feed P q rep with
  | none => ([], .noStep)
  | some (q', _, out) => ([], .ended (replyResult exp out) q' rest)

/-- The end of the reply in the machine is its text (R196). -/
theorem runResult_replyComplete (r : Bytes8) (s : State) (rest : List Answer) :
    runResult rest (replyComplete (filled r s)) = replyText s.par s.parser s.exp r.toList rest := by
  rw [replyComplete, replyText, filled_par, filled_parser, filled_rxb, filled_exp]
  rcases feed s.par s.parser r.toList with _ | ⟨q, n, o⟩
  · rfl
  · exact runAnswers_finish _ _ rest

/-- The text of a read transaction, as what is done with the end of each piece (R195). -/
theorem readTxnText_eq_conclude (P : Params) (slave : BitVec 2) (q : Parser) (reg : Byte) (answers : List Answer) :
    readTxnText P slave q reg answers =
      conclude q.restart (fun _ rest => conclude q.restart (replyText P q.restart (maskReg reg)) (readExactText 8 rest))
        (requestText (encodeRead P (zextSlave slave) reg) answers) := by
  rw [← conclude_andThen, readTxnText]
  rcases ((requestText (encodeRead P (zextSlave slave) reg)).andThen fun _ => readExactText 8) answers with
    ⟨calls, ⟨rep, rest⟩ | _ | _ | _⟩
  · simp only [conclude, replyText, afterCalls]
    rcases feed P q.restart rep with _ | ⟨q', n, o⟩ <;> simp
  all_goals rfl

/-- The text of a write transaction, in the same way (R200). -/
theorem writeTxnText_eq_conclude (P : Params) (slave : BitVec 2) (q : Parser) (reg : Byte) (data : Word)
    (answers : List Answer) :
    writeTxnText P slave q reg data answers =
      conclude q.restart (fun _ rest => ([], .ended .okWrite q.restart rest))
        (requestText (encodeWrite P (zextSlave slave) reg data) answers) := by
  rw [writeTxnText]
  rcases requestText (encodeWrite P (zextSlave slave) reg data) answers with ⟨calls, ⟨echo, rest⟩ | _ | _ | _⟩
  · simp only [conclude, afterCalls, List.append_nil]
  all_goals rfl

/-- The state of an accepted command when its request is written and flushed: the echo is to be read (R187, R188). -/
def echoing (op : Op) (reg : Byte) (data : Word) (s : State) : State :=
  goTo .echo (beginReadExact (requestLength op) (goTo .fl (acceptCommand op reg data s)))

/-- An accepted command runs as the text of its request, and then as the end of the echo says. -/
theorem runAnswers_acceptCommand {op : Op} {reg : Byte} {data : Word} {k : List Answer → List Call × TxnEnd}
    (hk : ∀ r rest, runAnswers (echoComplete (filled r (echoing op reg data s))) rest = k rest)
    (answers : List Answer) :
    runAnswers (acceptCommand op reg data s) answers =
      conclude s.parser.restart (fun _ => k) (requestText (requestOf s.par s.slave op reg data) answers) := by
  rw [← take_acceptCommand_txb]
  exact runAnswers_request rfl (requestLength_pos op) hk answers

/-- Settles O55: after the echo a read goes on to the read-exact of eight bytes, whose end is fed to the parser. -/
theorem readTransactionIsItsText : Obligations.ReadTransactionIsItsText := by
  intro s reg ignored answers hph
  refine ⟨_, command_idle hph .read reg ignored, ?_⟩
  rw [readTxnText_eq_conclude]
  refine runAnswers_acceptCommand (fun r rest => ?_) answers
  refine runAnswers_beginReadExact (p := .reply) (.inr rfl) (by decide) (fun r' rest' => ?_) rest
  exact runResult_replyComplete r' _ rest'

/-- Settles O56: after the echo a write has ended. -/
theorem writeTransactionIsItsText : Obligations.WriteTransactionIsItsText := by
  intro s reg data answers hph
  refine ⟨_, command_idle hph .write reg data, ?_⟩
  rw [writeTxnText_eq_conclude]
  refine runAnswers_acceptCommand (fun r rest => ?_) answers
  exact runAnswers_finish .okWrite _ rest

end Sys2Proof.Machine
end

section
/-! PROOFS. A bound on the answers a transaction waits for (42_transaction.md R191): each answer that does not end it
brings it nearer to its end. -/

namespace Sys2Proof.Machine

variable {s t : State}

/-- The bytes of the reply (R192). -/
def replyLength : Op → Nat
  | .read => 8
  | .write => 0

/-- At most so many answers are still taken, when each answer to `RxRead` brings one byte (R191). -/
def answersLeft (s : State) : Nat :=
  match s.ph with
  | .idle => 0
  | .wr => 2 + s.txn.val + replyLength s.opr
  | .fl => 1 + s.txn.val + replyLength s.opr
  | .echo => room s + replyLength s.opr
  | .reply => room s

/-- A call that is outstanding takes an answer. -/
theorem answersLeft_pos (hi : s.Inv) (hph : s.ph ≠ .idle) : 0 < answersLeft s := by
  unfold answersLeft
  cases h : s.ph with
  | idle => exact absurd h hph
  | wr | fl => simp only; omega
  | echo =>
    have hwant := got_lt_need hi (.inl h)
    simp only [room]
    omega
  | reply =>
    have hwant := got_lt_need hi (.inr h)
    simp only [room]
    omega

/-- Collected bytes make the room smaller (R189). -/
theorem room_collect {bs : List Byte} (hb : bs ≠ []) (hmore : s.got.val + bs.length < s.need.val) :
    room (collect bs s) < room s := by
  have hroom : bs.length ≤ room s := by simp only [room]; omega
  have hpos := List.length_pos_iff.2 hb
  rw [room, collect_got_val hroom hb, collect_need, room]
  omega

/-- An answer to `RxRead` that leaves a call outstanding. -/
theorem readExact_answersLeft {a : RxAnswer} (hi : s.Inv) (h : execReadExact a s = .next t) (ht : t.ph ≠ .idle) :
    answersLeft t < answersLeft s := by
  obtain ⟨hph, ⟨e, -, rfl⟩ | ⟨-, rfl⟩ | ⟨bs, -, hb, -, ⟨hmore, rfl⟩ | ⟨-, hecho, rfl⟩ | ⟨-, -, q, n, o, -, rfl⟩⟩⟩ :=
    readExact_cases h
  · exact absurd rfl ht
  · exact absurd rfl ht
  · have hless := room_collect hb hmore
    rcases hph with hph | hph <;> simp only [answersLeft, collect_ph, collect_opr, hph] <;> omega
  · obtain ⟨-, heq⟩ | ⟨hopr, heq⟩ := echoComplete_cases (collect bs s) <;> rw [heq] at ht ⊢
    · exact absurd rfl ht
    · have hwant := got_lt_need hi hph
      rw [collect_opr] at hopr
      have hreply : answersLeft (goTo .reply (beginReadExact 8 (collect bs s))) = 8 := rfl
      rw [hreply]
      simp only [answersLeft, hecho, hopr, replyLength, room]
      omega
  · exact absurd rfl ht

/-- An answer that leaves a call outstanding (R191). -/
theorem exec_answersLeft {a : Answer} (hi : s.Inv) (h : exec a.instr s = .next t) (ht : t.ph ≠ .idle) :
    answersLeft t < answersLeft s := by
  cases a with
  | write a =>
    obtain ⟨hph, rfl | ⟨x, rfl⟩⟩ := writeAll_cases h
    · simp only [answersLeft, hph, goTo_ph, goTo_txn, goTo_opr]
      omega
    · exact absurd rfl ht
  | flush a =>
    obtain ⟨hph, rfl | ⟨x, rfl⟩⟩ := flush_cases h
    · have hecho : answersLeft (goTo .echo (beginReadExact s.txn s)) = s.txn.val + replyLength s.opr := rfl
      rw [hecho]
      simp only [answersLeft, hph]
      omega
    · exact absurd rfl ht
  | read a => exact readExact_answersLeft hi h ht

/-- A run waits at a call (R33). -/
theorem ph_ne_idle_of_waiting {answers : List Answer} (h : (runAnswers s answers).2 = .waiting) : s.ph ≠ .idle := by
  intro hph
  rw [runAnswers_idle hph, endOf] at h
  cases hres : s.res <;> simp [hres] at h

/-- While a run waits, the answers it has had are below the bound. -/
theorem length_lt_answersLeft {answers : List Answer} (hi : s.Inv) (h : (runAnswers s answers).2 = .waiting) :
    answers.length < answersLeft s := by
  induction answers generalizing s with
  | nil => exact answersLeft_pos hi (ph_ne_idle_of_waiting h)
  | cons a rest ih =>
    obtain ⟨call, hcall⟩ := Option.ne_none_iff_exists'.1 (outstanding_eq_none.not.2 (ph_ne_idle_of_waiting h))
    rw [runAnswers_cons hcall] at h
    rcases hexec : exec a.instr s with t | f | r <;> simp only [hexec, afterCalls, runResult, reduceCtorEq] at h
    have hrest := ih (exec_inv hi hexec) h
    have hless := exec_answersLeft hi hexec (ph_ne_idle_of_waiting h)
    rw [List.length_cons]
    omega

/-- Settles O57: the bound right after the command is 2 + 4 + 8 for a read and 2 + 8 for a write. -/
theorem transactionsAreBounded : Obligations.TransactionsAreBounded := by
  intro s t reg d answers
  constructor
  · intro h hwait
    obtain rfl := eq_acceptCommand_of_command (op := .read) h
    exact length_lt_answersLeft (acceptCommand_inv .read reg d s) hwait
  · intro h hwait
    obtain rfl := eq_acceptCommand_of_command (op := .write) h
    exact length_lt_answersLeft (acceptCommand_inv .write reg d s) hwait

end Sys2Proof.Machine
end

section
/-! PROOFS. A write and then a read on a transport that echoes and a device that replies (42_transaction.md R207): the
events of a read-exact collect their pieces, whatever the cutting, and the end of the echo or of the reply follows. -/

namespace Sys2Proof.Machine

variable {s t : State} {chunks : List (List Byte)} {rest : List Event}

/-- The events by which pieces of bytes arrive. -/
def chunkEvents (chunks : List (List Byte)) : List Event := chunks.map fun bs => .op (.readExact (.ok bs))

theorem answerEvents_goodAnswers (chunks : List (List Byte)) :
    answerEvents (goodAnswers chunks) = .op (.writeAll .ok) :: .op (.flush .ok) :: chunkEvents chunks := by
  simp [answerEvents, goodAnswers, chunkEvents, Answer.instr]

theorem chunkEvents_append (xs ys : List (List Byte)) : chunkEvents (xs ++ ys) = chunkEvents xs ++ chunkEvents ys :=
  List.map_append

/-- Storing one piece after another is storing both. -/
theorem store_append (r : Bytes8) (i : Nat) (xs ys : List Byte) :
    (r.store i xs).store (i + xs.length) ys = r.store i (xs ++ ys) := by
  induction xs generalizing r i with
  | nil => rfl
  | cons x xs ih => simpa [Bytes8.store, Nat.add_assoc, Nat.add_comm 1] using ih (r.set i x) (i + 1)

/-- The pieces that bring the bytes still wanted end the count, whatever the cutting (R189, R190). -/
theorem run_chunks (hph : s.ph = .echo ∨ s.ph = .reply) (hin : s.inputs = chunkEvents chunks ++ rest)
    (hne : ∀ c ∈ chunks, c ≠ []) (hwant : s.got.val < s.need.val)
    (hl : s.got.val + chunks.flatten.length = s.need.val)
    (hend : atCount (filled (s.rxb.store s.got.val chunks.flatten) (takeEvent rest s)) = .next t) :
    Sys2Proof.core.run chunks.length s = .next t := by
  induction chunks generalizing s with
  | nil => simp at hl; omega
  | cons c cs ih =>
    obtain ⟨hc, hcs⟩ := List.forall_mem_cons.1 hne
    have hstep := step_op (s := s) (i := .readExact (.ok c)) (rest := chunkEvents cs ++ rest) hin
    rw [List.flatten_cons, List.length_append] at hl
    by_cases hlast : cs = []
    · subst hlast
      have hcount := exec_readExact_count (s := takeEvent rest s) hph hc (by simpa using hl)
      refine run_succ (k := 0) (hstep.trans (hcount.trans ?_))
      simpa using hend
    · have hpos : 0 < cs.flatten.length := by
        obtain ⟨d, ds, rfl⟩ := List.exists_cons_of_ne_nil hlast
        have hd := List.length_pos_iff.2 (hcs d (by simp))
        rw [List.flatten_cons, List.length_append]
        omega
      have hmore : s.got.val + c.length < s.need.val := by omega
      have hroom : c.length ≤ room s := by simp only [room]; omega
      have hgot : (collect c (takeEvent (chunkEvents cs ++ rest) s)).got.val = s.got.val + c.length :=
        collect_got_val hroom hc
      rw [List.length_cons, run_succ (hstep.trans (readExact_more hph hc hmore))]
      refine ih hph rfl hcs (by rw [hgot]; exact hmore) (by rw [hgot, collect_need, takeEvent_need]; omega) ?_
      rw [hgot, collect_rxb, takeEvent_rxb, takeEvent_got, store_append]
      exact hend

/-- The operation of a command (R41, R195, R200). -/
def commandInstr : Op → Byte → Word → Instr
  | .read, reg, data => .readTxn reg data
  | .write, reg, data => .writeTxn reg data

theorem exec_commandInstr (op : Op) (reg : Byte) (data : Word) (s : State) :
    exec (commandInstr op reg data) s = command op reg data s := by cases op <;> rfl

/-- The events of a command whose request is taken, flushed, and echoed in pieces. -/
def requestEvents (op : Op) (reg : Byte) (data : Word) (chunks : List (List Byte)) : List Event :=
  .op (commandInstr op reg data) :: answerEvents (goodAnswers chunks)

/-- A command, the answers to its write and flush, and its echo in any pieces: the end of the echo (R185 to R192). -/
theorem run_request {op : Op} {reg : Byte} {data : Word} (hph : s.ph = .idle)
    (hecho : Pieces (requestOf s.par s.slave op reg data) chunks)
    (hin : s.inputs = requestEvents op reg data chunks ++ rest) :
    ∃ r, Sys2Proof.core.run (3 + chunks.length) s =
      .next (echoComplete (filled r (takeEvent rest (echoing op reg data s)))) := by
  obtain ⟨hflat, hne⟩ := hecho
  have hlen : chunks.flatten.length = (requestLength op).val := by rw [hflat]; cases op <;> rfl
  have hpos : 0 < (requestLength op).val := requestLength_pos op
  rw [requestEvents, answerEvents_goodAnswers] at hin
  have hcmd := (step_op hin).trans ((exec_commandInstr op reg data _).trans (command_idle (s := takeEvent _ s) hph ..))
  refine ⟨s.rxb.store 0 chunks.flatten, ?_⟩
  rw [Nat.add_comm, run_succ hcmd, run_succ ((step_op rfl).trans (exec_writeAll_ok rfl)),
    run_succ ((step_op rfl).trans (exec_flush_ok rfl))]
  exact run_chunks (.inl rfl) rfl hne hpos (by simpa using hlen) rfl

/-- A correctly checksummed reply is a valid response (R101). -/
theorem validResponse_replyBytes (P : Params) (reg : Byte) (data : Word) :
    ValidResponse P ⟨reg, data⟩ (replyBytes P reg data) :=
  ⟨rfl, (decodeSlice_respImage P).trans (decodeResponse_respImage_eq_ok.2 ⟨rfl, rfl, rfl, rfl⟩)⟩

/-- A valid response of the expected register ends a read with its payload (R196, R197). -/
theorem replyComplete_valid {data : Word} (hcur : s.parser.cur = 0)
    (hf : ValidResponse s.par ⟨s.exp, data⟩ s.rxb.toList) :
    ∃ q, replyComplete s = .next (finish (.okRead data) (withParser q s)) ∧ q.cur = 0 := by
  obtain ⟨q, hfeed, hq, -⟩ := feed_validResponse (.inl hcur) hf
  refine ⟨q, ?_, hq⟩
  simp only [replyComplete, hfeed, replyResult, ne_eq, not_true_eq_false, if_false]

/-- A write whose request is echoed ends with `Ok_Write` (R192). -/
theorem write_succeeds {reg : Byte} {data : Word} (hph : s.ph = .idle)
    (hecho : Pieces (encodeWrite s.par (zextSlave s.slave) reg data) chunks)
    (hin : s.inputs = requestEvents .write reg data chunks ++ rest) :
    ∃ t, Sys2Proof.core.run (3 + chunks.length) s = .next t ∧ t.res = some .okWrite ∧ t.ph = .idle ∧
      t.inputs = rest ∧ t.par = s.par ∧ t.slave = s.slave := by
  obtain ⟨r, hrun⟩ := run_request (op := .write) hph hecho hin
  exact ⟨_, hrun, rfl, rfl, rfl, rfl, rfl⟩

/-- A read whose request is echoed and whose reply is correct ends with the reply's payload (R197). -/
theorem read_succeeds {reg : Byte} {ignored value : Word} {reply : List (List Byte)} (hph : s.ph = .idle)
    (hecho : Pieces (encodeRead s.par (zextSlave s.slave) reg) chunks)
    (hreply : Pieces (replyBytes s.par (maskReg reg) value) reply)
    (hin : s.inputs = requestEvents .read reg ignored chunks ++ (chunkEvents reply ++ rest)) :
    ∃ u, Sys2Proof.core.run (3 + chunks.length + reply.length) s = .next u ∧ u.res = some (.okRead value) ∧
      u.ph = .idle ∧ u.parser.cur = 0 ∧ u.inputs = rest := by
  obtain ⟨r, hrun⟩ := run_request (op := .read) (rest := chunkEvents reply ++ rest) hph hecho hin
  obtain ⟨hflat, hne⟩ := hreply
  have hbytes : (r.store 0 reply.flatten).toList = replyBytes s.par (maskReg reg) value := by
    rw [hflat, Bytes8.toList_store_eight _ _ rfl]
  obtain ⟨q, hend, hq⟩ := replyComplete_valid (data := value)
    (s := filled (r.store 0 reply.flatten) (takeEvent rest (goTo .reply (beginReadExact 8
      (filled r (takeEvent (chunkEvents reply ++ rest) (echoing .read reg ignored s)))))))
    rfl (by rw [filled_rxb, hbytes]; exact validResponse_replyBytes s.par (maskReg reg) value)
  rw [run_add hrun]
  exact ⟨_, run_chunks (.inr rfl) rfl hne (show 0 < 8 by decide) (by rw [hflat]; rfl) hend, rfl, rfl, hq, rfl⟩

/-- Settles O58: the write, and then the read from the state it leaves. -/
theorem writeThenReadSucceeds : Obligations.WriteThenReadSucceeds := by
  intro s reg data value ignored echo1 echo2 reply rest hph hecho1 hecho2 hreply hin
  rw [← zextSlave_eq] at hecho1 hecho2
  obtain ⟨t, hrun, hres, htph, htin, hpar, hslave⟩ := write_succeeds hph hecho1 hin
  have hsplit : t.inputs = requestEvents .read reg ignored echo2 ++ (chunkEvents reply ++ rest) := by
    simp [htin, requestEvents, commandInstr, answerEvents_goodAnswers, chunkEvents_append]
  rw [← hpar, ← hslave] at hecho2
  rw [← hpar] at hreply
  obtain ⟨u, hread⟩ := read_succeeds htph hecho2 hreply hsplit
  exact ⟨t, u, hrun, hres, htph, hread⟩

end Sys2Proof.Machine
end

section
/-! PROOFS. The block's reset input (70_reset_and_hazards.md R260 to R262). -/

namespace Sys2Proof.Machine

/-- A reset at the head of the queue resets the block, in every phase (R260). -/
theorem step_reset {s : State} {rest : List Event} (h : s.inputs = .reset :: rest) :
    step s = .next (blockReset (takeEvent rest s)) := by simp only [step, takeAndRun, h, runEvent]

/-- Settles O6: the next state is `step_reset`'s, and the laws of `blockReset` and `takeEvent` give its registers. -/
theorem blockResetRegisters : Obligations.BlockResetRegisters := by
  intro s rest hhead
  refine ⟨_, step_reset hhead, blockReset_cur _, blockReset_ph _, blockReset_got _, blockReset_need _,
    blockReset_res _, ?_, ?_, ?_, ?_⟩
  · rw [blockReset_slave, takeEvent_slave]
  · rw [blockReset_par, takeEvent_par]
  · rw [blockReset_inputs, takeEvent_inputs]
  · rw [blockReset_ret, takeEvent_ret]

end Sys2Proof.Machine
end
